-- ==== Sys2Proof/Word.lean ====
section
/-!
DEFINITION. The widths of the machine's values (spec R8, R34, R45, R53). Every value is unsigned and
bit 0 is its least significant bit (R10).
-/

namespace Sys2Proof

/-- Eight bits: a memory byte, the main sequencer, the byte-wide registers (R30, R34, R53). -/
abbrev Byte := BitVec 8

/-- Sixteen bits: an address, the NO bus, the word-wide registers (R34, R81, R251). -/
abbrev Word := BitVec 16

/-- One condition flip-flop group: seven bits, no eighth (R45). -/
abbrev Group := BitVec 7

/-- A command word of a timing chart (R103). -/
abbrev CmdWord := BitVec 32

/-- An entry word of a timing chart (R100). -/
abbrev EntryWord := BitVec 64

end Sys2Proof
end

