-- ==== Sys2Proof/Syntax.lean ====
section
/-!
DEFINITION. The commands a timing chart may name (spec files 30, 42, 43, 44), one constructor of
`Instr` per row of the opcode table, with the operand enumerations of rules R105, R108, R109, R112;
and the chart entries and guard definitions that carry them (R100, R113, R176).
-/

namespace Sys2Proof

/-- A destination of an input transfer, in the order of its ids 0x00 to 0x11 (R105). -/
inductive Dest
  | ms | pa | oa1 | oa2 | oa3 | oa4 | lr1 | lr2 | lr3 | rr | da | dO | fc | sb | pcs | fs | cfa | cfb
deriving DecidableEq, Repr, Inhabited

/-- A source of the NO knot, in the order of its ids 0 to 9 (R108). -/
inductive NoSrc
  | pa | oa1 | oa2 | oa3 | oa4 | lr1 | lr2 | force1 | force2 | consw
deriving DecidableEq, Repr, Inhabited

/-- The source selection of one NI quartet, in the order of its codes 0 to 3 (R52, R109). -/
inductive NiSel
  | cn | rrLow | rrHigh | zero
deriving DecidableEq, Repr, Inhabited

/-- Four like things, one for each NI quartet 0 to 3 (R52). -/
structure Quartets (α : Type) where
  q0 : α
  q1 : α
  q2 : α
  q3 : α
deriving DecidableEq, Repr, Inhabited

/-- A single-bit flag, by the names of R112. `rsb i` and `x i` are legal only below the counts
`N_RSB` and `N_XFLAGS` of the configuration. -/
inductive Flag
  | cfa (bit : Fin 7) | cfb (bit : Fin 7)
  | powered | halted | loading | stallDis | stepMode | opCall | intp | cnz
  | cb1 | cb2 | cb3 | req1 | req2 | req3
  | rsb (i : Fin 8) | x (i : Fin 64)
deriving DecidableEq, Repr, Inhabited

/-- A command (R103, R115). Every row of the opcode table is a constructor. -/
inductive Instr
  /-- IT.NO (R201): copy the NO knot into the masked bits of a destination. -/
  | itNo (d : Dest) (mask : Word)
  /-- IT.NA (R202): copy the NA knot, zero-extended. -/
  | itNa (d : Dest) (mask : Word)
  /-- IT.NI (R203): copy the NI knot. -/
  | itNi (d : Dest) (mask : Word)
  /-- IT.CN (R204): copy the counting network's output. -/
  | itCn (d : Dest) (mask : Word)
  /-- OT.NO (R220): select the source of the NO knot. -/
  | otNo (src : NoSrc)
  /-- OT.NI (R222): select the sources of the NI quartets named (`none`: the quartet is not in QEN). -/
  | otNi (sel : Quartets (Option NiSel))
  /-- SETF (R230). -/
  | setf (f : Flag)
  /-- CLRF (R231). -/
  | clrf (f : Flag)
  /-- TOGF (R232). -/
  | togf (f : Flag)
  /-- LATCH.AB (R236): CFB from CFA. -/
  | latchAB
  /-- LATCH.BA (R237): CFA from CFB. -/
  | latchBA
  /-- MR (R205): memory read into RR. -/
  | mr
  /-- MW (R206): memory write from NI. -/
  | mw
deriving DecidableEq, Repr, Inhabited

/-- A signal a guard literal may name (R113): a flag, or one of five knot signals. -/
inductive Signal
  | flag (f : Flag) | ch1a | ch2a | ch3a | cpua | jcv
deriving DecidableEq, Repr, Inhabited

/-- A guard literal: the signal itself, or its negation when `positive` is false (R176). -/
structure Literal where
  positive : Bool
  sig : Signal
deriving DecidableEq, Repr, Inhabited

/-- A guard after registration: a conjunction of literals, or an opaque predicate named by a number
(R176). The absent guard, id 0, is the empty conjunction (R175). -/
inductive Guard
  | all (lits : List Literal)
  | pred (n : Nat)
deriving DecidableEq, Repr, Inhabited

/-- A guard literal as the table GUARDS holds it: the signal is an 8-bit id, not yet checked (R113). -/
structure RawLiteral where
  positive : Bool
  sigId : Byte
deriving DecidableEq, Repr, Inhabited

/-- An entry of the table GUARDS before registration (R58, R176). -/
inductive GuardDef
  | all (lits : List RawLiteral)
  | pred (n : Nat)
deriving DecidableEq, Repr, Inhabited

/-- A chart entry after registration: pulse position, guard, command (R100, R172). -/
structure Entry where
  pos : Fin 20
  guard : Guard
  cmd : Instr
deriving DecidableEq, Repr, Inhabited

/-- The table GUARDS: guard ids 1 to 255 with their definitions (R58). -/
abbrev GuardTable := List (Byte × GuardDef)

/-- The table CHARTS as it is supplied: main-sequencer values with their entry words, in declaration
order (R57, R173). -/
abbrev RawCharts := List (Byte × List EntryWord)

/-- The table CHARTS after registration (R170, R182). -/
abbrev ChartTable := List (Byte × List Entry)

/-- W(dest), the width of a destination in bits (R105). -/
def Dest.width : Dest → Nat
  | .ms | .rr | .fc | .sb | .pcs | .fs => 8
  | .cfa | .cfb => 7
  | .pa | .oa1 | .oa2 | .oa3 | .oa4 | .lr1 | .lr2 | .lr3 | .da | .dO => 16

end Sys2Proof
end

