-- ==== Sys2Proof/Config.lean ====
section
/-!
DEFINITION. What an implementation fixes (spec R8, R9, R60). A parameter the spec leaves OPEN is an
opaque constant with no body (notes/assumptions/2.md); a parameter the spec gives a value has it.
The parameters that read the whole machine state (RES0_FN, the opaque guard predicates, the hooks)
stand in Machine/Params.lean, after the state they read.
-/

namespace Sys2Proof

/-- Which condition group a jump condition reads (R263). -/
inductive CondGroup
  | a | b
deriving DecidableEq, Repr, Inhabited

/-- A jump condition: one bit of one condition group, compared with a polarity (R262, R263). -/
structure JumpCond where
  group : CondGroup
  bit : Fin 7
  polarity : Bool
deriving DecidableEq, Repr, Inhabited

/-- A bit pattern on the secondary operand byte, with its condition (R263). -/
structure JumpPattern where
  mask : Byte
  value : Byte
  cond : JumpCond
deriving DecidableEq, Repr, Inhabited

/-- `(b & mask) = value` (R262). -/
def JumpPattern.fits (p : JumpPattern) (b : Byte) : Bool := (b &&& p.mask) == p.value

/-- No byte fits both patterns (R263). -/
def JumpPattern.Exclusive (p q : JumpPattern) : Prop := ∀ b : Byte, ¬ (p.fits b = true ∧ q.fits b = true)

/-- The fields of the parameter JTAB, before its check (R263). -/
structure JumpCodes where
  jop : Byte
  sop1 : Byte
  sop2 : Byte
  p0 : JumpPattern
  p1 : JumpPattern
  p2 : JumpPattern
  p3 : JumpPattern
  s1 : JumpCond
  s2 : JumpCond
deriving DecidableEq, Repr, Inhabited

/-- The check on JTAB (R263): the function codes pairwise distinct, the patterns mutually exclusive. -/
def JumpCodes.Legal (t : JumpCodes) : Prop :=
  t.jop ≠ t.sop1 ∧ t.jop ≠ t.sop2 ∧ t.sop1 ≠ t.sop2 ∧
  t.p0.Exclusive t.p1 ∧ t.p0.Exclusive t.p2 ∧ t.p0.Exclusive t.p3 ∧
  t.p1.Exclusive t.p2 ∧ t.p1.Exclusive t.p3 ∧ t.p2.Exclusive t.p3

/-- A table used only to show that a legal JTAB exists; the machine's own is `Config.jumpTable`. -/
def JumpCodes.sample : JumpCodes :=
  { jop := 0, sop1 := 1, sop2 := 2
    p0 := ⟨0xFF, 0, default⟩, p1 := ⟨0xFF, 1, default⟩, p2 := ⟨0xFF, 2, default⟩, p3 := ⟨0xFF, 3, default⟩
    s1 := default, s2 := default }

/-- Two patterns under one mask with different values exclude each other. -/
theorem JumpPattern.exclusive_of_value_ne {p q : JumpPattern} (hm : p.mask = q.mask) (hv : p.value ≠ q.value) :
    p.Exclusive q := by
  intro b h
  simp only [JumpPattern.fits, beq_iff_eq] at h
  exact hv (by rw [← h.1, hm, h.2])

/-- The sample table passes the check. -/
theorem JumpCodes.sample_legal : JumpCodes.sample.Legal := by
  refine ⟨by decide, by decide, by decide, ?_, ?_, ?_, ?_, ?_, ?_⟩ <;>
    exact JumpPattern.exclusive_of_value_ne rfl (by decide)

/-- A JTAB that passed its check: an ill-formed one cannot be supplied (R263, 93 X13). -/
structure JumpTable where
  codes : JumpCodes := JumpCodes.sample
  legal : codes.Legal := by exact JumpCodes.sample_legal
deriving Inhabited

namespace Config

/-- N_RSB, the number of register-selector bits, 0 to 8 (R9, D19). -/
opaque nRsb : Fin 9

/-- N_XFLAGS, the number of further flags, 0 to 64 (R9, D19). -/
opaque nXFlags : Fin 65

/-- FORCE1, the first forcing source of the NO knot (R252, D15). -/
opaque force1 : Word

/-- FORCE2, the second forcing source of the NO knot (R252, D15). -/
opaque force2 : Word

/-- NA_FN, the NA knot's function of CH1A, CH2A, CH3A, CPUA, PCS, MS and FS, in this order (R253, D12). -/
opaque naFn : Bool → Bool → Bool → Bool → Byte → Byte → Byte → Byte

/-- JTAB, the jump encodings and their conditions (R263, D14). -/
opaque jumpTable : JumpTable

/-- CLEAR_SET, the flags `clear` resets besides HALTED (R280, D26). -/
opaque clearSet : List Flag

/-- START_FLAG, the one flag `start` clears (R283, D26). -/
opaque startFlag : Flag

/-- The byte a program load reads past the end of the buffer it was given; the spec states no value
there (notes/assumptions/8.md). Its arguments are the load's call number and the index. -/
opaque unreadByte : Nat → Nat → Byte

/-- DISPLAY_STATE, which the spec takes as 0x80 (R9, R283, D25). -/
def displayState : Byte := 0x80#8

/-- LOAD_MAX, which the spec takes as 129 bytes (R9, R282, D27). -/
def loadMax : Nat := 129

end Config

end Sys2Proof
end

