-- ==== Sys2Proof/WellFormed.lean ====
section
/-!
DEFINITION. The checks the encoding puts on a command's operands (spec R106, R109, R112, R117).
-/

namespace Sys2Proof

/-- The run of `len` ones whose lowest bit is bit `lo`. -/
def maskRun (lo len : Nat) : Word := BitVec.ofNat 16 ((2 ^ len - 1) * 2 ^ lo)

/-- One contiguous run of one or more ones inside the low `w` bits: a legal MASK for a destination of
width `w` (R106). -/
def maskLegal (w : Nat) (m : Word) : Bool :=
  (List.range w).any fun lo => (List.range (w - lo)).any fun n => m == maskRun lo (n + 1)

/-- The flag ids that name a flag of this configuration (R112). -/
def Flag.legal : Flag → Bool
  | .rsb i => decide (i.val < Config.nRsb.val)
  | .x i => decide (i.val < Config.nXFlags.val)
  | .cfa _ | .cfb _ | .powered | .halted | .loading | .stallDis | .stepMode | .opCall | .intp | .cnz
  | .cb1 | .cb2 | .cb3 | .req1 | .req2 | .req3 => true

/-- QEN is not empty (R109). -/
def Quartets.someSet (q : Quartets (Option NiSel)) : Bool :=
  q.q0.isSome || q.q1.isSome || q.q2.isSome || q.q3.isSome

/-- The command has an encoding (R117). -/
def Instr.wf : Instr → Bool
  | .itNo d m | .itNa d m | .itNi d m | .itCn d m => maskLegal d.width m
  | .otNi q => q.someSet
  | .setf f | .clrf f | .togf f => f.legal
  | .otNo _ | .latchAB | .latchBA | .mr | .mw => true

/-- The mask of the full width of a destination (R106). -/
def Dest.fullMask (d : Dest) : Word := maskRun 0 d.width

/-- Which knot an input transfer copies (R104). -/
inductive Knot
  | no | na | ni | cn
deriving DecidableEq, Repr, Inhabited

/-- The input transfer of a knot (R104). -/
def Instr.it : Knot → Dest → Word → Instr
  | .no => .itNo
  | .na => .itNa
  | .ni => .itNi
  | .cn => .itCn

/-- The pseudo-instruction `GO <knot>` (R121). -/
def Instr.go (k : Knot) : Instr := .it k .ms 0x00FF

/-- The pseudo-instruction `IT <knot> -> <dest>` without a mask (R121). -/
def Instr.itFull (k : Knot) (d : Dest) : Instr := .it k d d.fullMask

/-- The pseudo-instruction `OT NI all=<sel>` (R121). -/
def Instr.otNiAll (s : NiSel) : Instr := .otNi ⟨some s, some s, some s, some s⟩

end Sys2Proof
end

