-- ==== Sys2Proof/Decode.lean ====
section
/-!
DEFINITION. Decoding and encoding of command words and chart entries (spec file 30), and the
registration of the tables CHARTS and GUARDS (R182). The decoder is total and rejects by name; the
encoder writes the words of the same tables.
-/

namespace Sys2Proof

/-- Why a word or a table is refused before the run (R116, R117, R182; 93 X1 to X12). -/
inductive DecodeError
  /-- Command class 0x0 or 0x9 to 0xF (X4). -/
  | reservedClass
  /-- IT with SRC 4 to 15 (X5). -/
  | reservedItSource
  /-- IT with DEST 0x12 to 0xFF (X5). -/
  | reservedDest
  /-- IT with a MASK that is zero, not one run, or not inside the destination (X5). -/
  | illegalMask
  /-- OT with KNOT 1, 3 or 4 to 15 (X6). -/
  | reservedOtKnot
  /-- OT.NO with C[23:4] not 0 (X7). -/
  | otNoPadding
  /-- OT.NO with SRC 10 to 15 (X7). -/
  | reservedNoSource
  /-- OT.NI with C[23:12] not 0 (X8). -/
  | otNiPadding
  /-- OT.NI with QEN 0 (X8). -/
  | noQuartet
  /-- OT.NI with a selector for a quartet not in QEN (X8). -/
  | unusedSelector
  /-- SETF, CLRF or TOGF with C[27:8] not 0 (X9). -/
  | flagPadding
  /-- A reserved flag id (X9). -/
  | reservedFlag
  /-- LATCH with C[27:1] not 0 (X10). -/
  | latchPadding
  /-- MR or MW with C[27:0] not 0 (X11). -/
  | memoryPadding
  /-- An entry with POS 20 to 31 (X1). -/
  | sentinelPosition
  /-- An entry with E[7:5] or E[31:16] not 0 (X2). -/
  | entryPadding
  /-- An entry whose GUARD is neither 0 nor defined (X3). -/
  | undefinedGuard
  /-- A guard literal with a reserved signal or flag id (X12). -/
  | reservedSignal
  /-- GUARDS defines id 0, or an id twice, or CHARTS lists a value twice (R57, R58;
  notes/assumptions/10.md: the keys stand in rising order). -/
  | tableKeys
deriving DecidableEq, Repr

/-! ## Operand ids -/

/-- The destination ids (R105). -/
def Dest.id : Dest → Byte
  | .ms => 0x00 | .pa => 0x01 | .oa1 => 0x02 | .oa2 => 0x03 | .oa3 => 0x04 | .oa4 => 0x05
  | .lr1 => 0x06 | .lr2 => 0x07 | .lr3 => 0x08 | .rr => 0x09 | .da => 0x0A | .dO => 0x0B
  | .fc => 0x0C | .sb => 0x0D | .pcs => 0x0E | .fs => 0x0F | .cfa => 0x10 | .cfb => 0x11

/-- Every destination. -/
def Dest.list : List Dest :=
  [.ms, .pa, .oa1, .oa2, .oa3, .oa4, .lr1, .lr2, .lr3, .rr, .da, .dO, .fc, .sb, .pcs, .fs, .cfa, .cfb]

/-- The destination an id names; none for 0x12 to 0xFF (R105). -/
def Dest.ofId (b : Byte) : Option Dest := Dest.list.find? fun d => d.id == b

/-- The NO source ids (R108). -/
def NoSrc.id : NoSrc → BitVec 4
  | .pa => 0 | .oa1 => 1 | .oa2 => 2 | .oa3 => 3 | .oa4 => 4 | .lr1 => 5 | .lr2 => 6
  | .force1 => 7 | .force2 => 8 | .consw => 9

/-- Every NO source. -/
def NoSrc.list : List NoSrc := [.pa, .oa1, .oa2, .oa3, .oa4, .lr1, .lr2, .force1, .force2, .consw]

/-- The NO source an id names; none for 10 to 15 (R108). -/
def NoSrc.ofId (b : BitVec 4) : Option NoSrc := NoSrc.list.find? fun s => s.id == b

/-- The quartet selector codes (R109). -/
def NiSel.code : NiSel → BitVec 2
  | .cn => 0 | .rrLow => 1 | .rrHigh => 2 | .zero => 3

/-- The selector a code names (R109). -/
def NiSel.ofCode (b : BitVec 2) : NiSel :=
  if b = 0 then .cn else if b = 1 then .rrLow else if b = 2 then .rrHigh else .zero

/-- The flag ids (R112). -/
def Flag.id : Flag → Byte
  | .cfa i => BitVec.ofNat 8 i.val
  | .cfb i => BitVec.ofNat 8 (0x08 + i.val)
  | .powered => 0x10 | .halted => 0x11 | .loading => 0x12 | .stallDis => 0x13 | .stepMode => 0x14
  | .opCall => 0x15 | .intp => 0x16 | .cnz => 0x17 | .cb1 => 0x18 | .cb2 => 0x19 | .cb3 => 0x1A
  | .req1 => 0x1B | .req2 => 0x1C | .req3 => 0x1D
  | .rsb i => BitVec.ofNat 8 (0x20 + i.val)
  | .x i => BitVec.ofNat 8 (0x40 + i.val)

/-- The flags that are neither condition bits nor counted by a parameter. -/
def Flag.namedList : List Flag :=
  [.powered, .halted, .loading, .stallDis, .stepMode, .opCall, .intp, .cnz, .cb1, .cb2, .cb3,
   .req1, .req2, .req3]

/-- The flag an id names in some configuration (R112); none for the reserved ids. -/
def Flag.ofId (b : Byte) : Option Flag :=
  if h : b.toNat < 7 then some (.cfa ⟨b.toNat, h⟩)
  else if h : 8 ≤ b.toNat ∧ b.toNat < 15 then some (.cfb ⟨b.toNat - 8, by omega⟩)
  else if h : 0x20 ≤ b.toNat ∧ b.toNat < 0x28 then some (.rsb ⟨b.toNat - 0x20, by omega⟩)
  else if h : 0x40 ≤ b.toNat ∧ b.toNat < 0x80 then some (.x ⟨b.toNat - 0x40, by omega⟩)
  else Flag.namedList.find? fun f => f.id == b

/-- The flag an id names in this configuration (R112, R233). -/
def Flag.ofLegalId (b : Byte) : Option Flag :=
  match Flag.ofId b with
  | some f => if f.legal then some f else none
  | none => none

/-- The signal a guard literal's id names (R113). -/
def Signal.ofId (b : Byte) : Option Signal :=
  if b = 0x80 then some .ch1a
  else if b = 0x81 then some .ch2a
  else if b = 0x82 then some .ch3a
  else if b = 0x83 then some .cpua
  else if b = 0x84 then some .jcv
  else (Flag.ofLegalId b).map .flag

/-! ## Command words -/

/-- The fields of an input transfer: C[23:16] and C[15:0] (R104 to R106). -/
def decodeTransfer (mk : Dest → Word → Instr) (c : CmdWord) : Except DecodeError Instr :=
  match Dest.ofId (c.extractLsb' 16 8) with
  | none => .error .reservedDest
  | some d => if maskLegal d.width (c.extractLsb' 0 16) then .ok (mk d (c.extractLsb' 0 16)) else .error .illegalMask

/-- IT (R104): the knot is C[27:24]. -/
def decodeIT (c : CmdWord) : Except DecodeError Instr :=
  match (c.extractLsb' 24 4).toNat with
  | 0 => decodeTransfer .itNo c
  | 1 => decodeTransfer .itNa c
  | 2 => decodeTransfer .itNi c
  | 3 => decodeTransfer .itCn c
  | _ => .error .reservedItSource

/-- OT.NO (R108). -/
def decodeOtNo (c : CmdWord) : Except DecodeError Instr :=
  if c.extractLsb' 4 20 ≠ 0 then .error .otNoPadding
  else match NoSrc.ofId (c.extractLsb' 0 4) with
    | none => .error .reservedNoSource
    | some s => .ok (.otNo s)

/-- One quartet of OT.NI: bit q of QEN and SEL[2q+1:2q]; `none` when the selector of a quartet not in
QEN is not 0 (R109). -/
def decodeQuartet (c : CmdWord) (q : Nat) : Option (Option NiSel) :=
  if c.getLsbD (8 + q) then some (some (NiSel.ofCode (c.extractLsb' (2 * q) 2)))
  else if c.extractLsb' (2 * q) 2 = 0 then some none
  else none

/-- OT.NI (R109). -/
def decodeOtNi (c : CmdWord) : Except DecodeError Instr :=
  if c.extractLsb' 12 12 ≠ 0 then .error .otNiPadding
  else if c.extractLsb' 8 4 = 0 then .error .noQuartet
  else match decodeQuartet c 0, decodeQuartet c 1, decodeQuartet c 2, decodeQuartet c 3 with
    | some a, some b, some d, some e => .ok (.otNi ⟨a, b, d, e⟩)
    | _, _, _, _ => .error .unusedSelector

/-- OT (R107): the knot is C[27:24]. -/
def decodeOT (c : CmdWord) : Except DecodeError Instr :=
  match (c.extractLsb' 24 4).toNat with
  | 0 => decodeOtNo c
  | 2 => decodeOtNi c
  | _ => .error .reservedOtKnot

/-- SETF, CLRF, TOGF (R110). -/
def decodeFlagCmd (mk : Flag → Instr) (c : CmdWord) : Except DecodeError Instr :=
  if c.extractLsb' 8 20 ≠ 0 then .error .flagPadding
  else match Flag.ofLegalId (c.extractLsb' 0 8) with
    | none => .error .reservedFlag
    | some f => .ok (mk f)

/-- LATCH (R111): the direction is C[0]. -/
def decodeLatch (c : CmdWord) : Except DecodeError Instr :=
  if c.extractLsb' 1 27 ≠ 0 then .error .latchPadding
  else if c.getLsbD 0 then .ok .latchBA else .ok .latchAB

/-- MR and MW (R114). -/
def decodeMemory (i : Instr) (c : CmdWord) : Except DecodeError Instr :=
  if c.extractLsb' 0 28 ≠ 0 then .error .memoryPadding else .ok i

/-- The command a 32-bit word holds, by its class C[31:28] (R103, R116, R117). -/
def decode (c : CmdWord) : Except DecodeError Instr :=
  match (c.extractLsb' 28 4).toNat with
  | 1 => decodeIT c
  | 2 => decodeOT c
  | 3 => decodeFlagCmd .setf c
  | 4 => decodeFlagCmd .clrf c
  | 5 => decodeFlagCmd .togf c
  | 6 => decodeLatch c
  | 7 => decodeMemory .mr c
  | 8 => decodeMemory .mw c
  | _ => .error .reservedClass

/-! ## Registration of the tables -/

/-- The literals of a guard definition, each signal id checked (R113, 93 X12). -/
def resolveLiterals : List RawLiteral → Except DecodeError (List Literal)
  | [] => .ok []
  | l :: ls =>
    match Signal.ofId l.sigId with
    | none => .error .reservedSignal
    | some s =>
      match resolveLiterals ls with
      | .error e => .error e
      | .ok rest => .ok (⟨l.positive, s⟩ :: rest)

/-- The guard a definition gives (R176). -/
def resolveGuard : GuardDef → Except DecodeError Guard
  | .pred n => .ok (.pred n)
  | .all ls =>
    match resolveLiterals ls with
    | .error e => .error e
    | .ok lits => .ok (.all lits)

/-- The guard an id names: 0 is the absent guard, always true (R102, R175). -/
def guardOfId (gs : GuardTable) (id : Byte) : Except DecodeError Guard :=
  if id = 0 then .ok (.all [])
  else match gs.lookup id with
    | none => .error .undefinedGuard
    | some g => resolveGuard g

/-- The entry a 64-bit word holds (R100 to R102, R116). -/
def decodeEntry (gs : GuardTable) (e : EntryWord) : Except DecodeError Entry :=
  if e.extractLsb' 5 3 ≠ 0 ∨ e.extractLsb' 16 16 ≠ 0 then .error .entryPadding
  else if h : (e.extractLsb' 0 5).toNat < 20 then
    match guardOfId gs (e.extractLsb' 8 8) with
    | .error err => .error err
    | .ok g =>
      match decode (e.extractLsb' 32 32) with
      | .error err => .error err
      | .ok i => .ok ⟨⟨(e.extractLsb' 0 5).toNat, h⟩, g, i⟩
  else .error .sentinelPosition

/-- The entries of one chart, in declaration order (R173). -/
def decodeChart (gs : GuardTable) : List EntryWord → Except DecodeError (List Entry)
  | [] => .ok []
  | w :: ws =>
    match decodeEntry gs w with
    | .error err => .error err
    | .ok e =>
      match decodeChart gs ws with
      | .error err => .error err
      | .ok es => .ok (e :: es)

/-- Every chart of the table (R182). -/
def decodeCharts (gs : GuardTable) : RawCharts → Except DecodeError ChartTable
  | [] => .ok []
  | (ms, ws) :: rest =>
    match decodeChart gs ws with
    | .error err => .error err
    | .ok es =>
      match decodeCharts gs rest with
      | .error err => .error err
      | .ok table => .ok ((ms, es) :: table)

/-- Every guard definition of GUARDS resolves, whether or not a chart names it (93 X12). -/
def checkGuards : GuardTable → Except DecodeError Unit
  | [] => .ok ()
  | (_, g) :: rest =>
    match resolveGuard g with
    | .error err => .error err
    | .ok _ => checkGuards rest

/-- The keys of a table stand in rising order, each once. -/
def keysRising : List Byte → Bool
  | a :: b :: rest => decide (a.toNat < b.toNat) && keysRising (b :: rest)
  | _ => true

/-- The registration check wf(CHARTS, GUARDS) and its result, the table the engine looks charts up in
(R118, R182). -/
def register (gs : GuardTable) (cs : RawCharts) : Except DecodeError ChartTable :=
  if keysRising (gs.map Prod.fst) && !(gs.map Prod.fst).contains 0 && keysRising (cs.map Prod.fst) then
    match checkGuards gs with
    | .error err => .error err
    | .ok _ => decodeCharts gs cs
  else .error .tableKeys

/-! ## The text form of a chart (R120, R121) -/

/-- One hexadecimal digit. -/
def hexDigit (n : Nat) : String :=
  match n with
  | 10 => "A" | 11 => "B" | 12 => "C" | 13 => "D" | 14 => "E" | 15 => "F"
  | k => Nat.repr k

/-- `n` hexadecimal digits of a number, the highest first. -/
def hexDigits : Nat → Nat → String
  | 0, _ => ""
  | n + 1, v => hexDigits n (v / 16) ++ hexDigit (v % 16)

/-- The names of the destinations (R105). -/
def Dest.text : Dest → String
  | .ms => "MS" | .pa => "PA" | .oa1 => "OA1" | .oa2 => "OA2" | .oa3 => "OA3" | .oa4 => "OA4"
  | .lr1 => "LR1" | .lr2 => "LR2" | .lr3 => "LR3" | .rr => "RR" | .da => "DA" | .dO => "DO"
  | .fc => "FC" | .sb => "SB" | .pcs => "PCS" | .fs => "FS" | .cfa => "CFA" | .cfb => "CFB"

/-- The names of the NO sources (R120). -/
def NoSrc.text : NoSrc → String
  | .pa => "PA" | .oa1 => "OA1" | .oa2 => "OA2" | .oa3 => "OA3" | .oa4 => "OA4"
  | .lr1 => "LR1" | .lr2 => "LR2" | .force1 => "F1" | .force2 => "F2" | .consw => "SW"

/-- The names of the quartet selectors (R120). -/
def NiSel.text : NiSel → String
  | .cn => "CN" | .rrLow => "RRL" | .rrHigh => "RRH" | .zero => "Z"

/-- The names of the flags (R112, R120). -/
def Flag.text : Flag → String
  | .cfa i => "CFA." ++ Nat.repr i.val
  | .cfb i => "CFB." ++ Nat.repr i.val
  | .powered => "POWERED" | .halted => "HALTED" | .loading => "LOADING" | .stallDis => "STALLDIS"
  | .stepMode => "STEP" | .opCall => "OPCALL" | .intp => "INTP" | .cnz => "CNZ"
  | .cb1 => "CB1" | .cb2 => "CB2" | .cb3 => "CB3" | .req1 => "REQ1" | .req2 => "REQ2" | .req3 => "REQ3"
  | .rsb i => "RSB" ++ Nat.repr i.val
  | .x i => "X" ++ Nat.repr i.val

/-- The quartets that OT.NI names, from quartet 0 up. -/
def quartetTexts (q : Quartets (Option NiSel)) : List String :=
  [(0, q.q0), (1, q.q1), (2, q.q2), (3, q.q3)].filterMap fun p =>
    p.2.map fun s => "q" ++ Nat.repr p.1 ++ "=" ++ s.text

/-- An input transfer; the mask of the full width is not written (R121). -/
def transferText (knot : String) (d : Dest) (m : Word) : String :=
  "IT " ++ knot ++ " -> " ++ d.text ++ (if m = d.fullMask then "" else " mask 0x" ++ hexDigits 4 m.toNat)

/-- The text of a command (R120). -/
def Instr.text : Instr → String
  | .itNo d m => transferText "NO" d m
  | .itNa d m => transferText "NA" d m
  | .itNi d m => transferText "NI" d m
  | .itCn d m => transferText "CN" d m
  | .otNo s => "OT NO <- " ++ s.text
  | .otNi q => "OT NI " ++ String.intercalate ", " (quartetTexts q)
  | .setf f => "SET " ++ f.text
  | .clrf f => "CLR " ++ f.text
  | .togf f => "TOG " ++ f.text
  | .latchAB => "LATCH CFB <- CFA"
  | .latchBA => "LATCH CFA <- CFB"
  | .mr => "MR"
  | .mw => "MW"

/-- The text of an entry: its position, its guard if it has one, its command (R120). -/
def entryText (pos : Fin 20) (guardId : Byte) (i : Instr) : String :=
  "P" ++ Nat.repr pos.val ++ (if guardId = 0 then " " else " if G" ++ Nat.repr guardId.toNat ++ " ") ++ i.text

/-- The names of the signals (R113). -/
def Signal.text : Signal → String
  | .flag f => f.text
  | .ch1a => "CH1A" | .ch2a => "CH2A" | .ch3a => "CH3A" | .cpua => "CPUA" | .jcv => "JCV"

/-- A literal: the signal, or the signal after an exclamation mark (R120). -/
def Literal.text (l : Literal) : String := (if l.positive then "" else "!") ++ l.sig.text

/-- The text of a conjunctive guard's definition (R120). -/
def guardText (guardId : Byte) (ls : List Literal) : String :=
  "G" ++ Nat.repr guardId.toNat ++ " = " ++ String.intercalate " & " (ls.map Literal.text)

/-- The text of a chart, line by line: its heading, its entries in order, the closing brace (characters
123 and 125 are the braces) (R120). -/
def chartLines (ms : Byte) (es : List (Fin 20 × Byte × Instr)) : List String :=
  ["chart 0x" ++ hexDigits 2 ms.toNat ++ " " ++ String.singleton (Char.ofNat 123)] ++
    es.map (fun e => "  " ++ entryText e.1 e.2.1 e.2.2) ++ [String.singleton (Char.ofNat 125)]

/-! ## The encoder -/

/-- An input transfer: class and source, destination, mask (R104). -/
def encodeTransfer (classSrc : Byte) (d : Dest) (m : Word) : CmdWord := classSrc ++ (d.id ++ m)

/-- The selector bits of a quartet; 0 for a quartet not in QEN (R109). -/
def selCode : Option NiSel → BitVec 2
  | none => 0
  | some s => s.code

/-- OT.NI: QEN in C[11:8], the selectors in C[7:0], quartet 3 highest (R109). -/
def encodeOtNi (q : Quartets (Option NiSel)) : CmdWord :=
  (0x22000 : BitVec 20) ++
    ((BitVec.ofBool q.q3.isSome ++ (BitVec.ofBool q.q2.isSome ++ (BitVec.ofBool q.q1.isSome ++ BitVec.ofBool q.q0.isSome)) : BitVec 4) ++
     ((selCode q.q3 ++ (selCode q.q2 ++ (selCode q.q1 ++ selCode q.q0))) : BitVec 8))

/-- The command word of a command (R103 to R114). -/
def encode : Instr → CmdWord
  | .itNo d m => encodeTransfer 0x10 d m
  | .itNa d m => encodeTransfer 0x11 d m
  | .itNi d m => encodeTransfer 0x12 d m
  | .itCn d m => encodeTransfer 0x13 d m
  | .otNo s => (0x2000000 : BitVec 28) ++ s.id
  | .otNi q => encodeOtNi q
  | .setf f => (0x300000 : BitVec 24) ++ f.id
  | .clrf f => (0x400000 : BitVec 24) ++ f.id
  | .togf f => (0x500000 : BitVec 24) ++ f.id
  | .latchAB => 0x60000000
  | .latchBA => 0x60000001
  | .mr => 0x70000000
  | .mw => 0x80000000

/-- The entry word with a command word at a position under a guard id (R100). -/
def encodeEntry (pos : Fin 20) (guardId : Byte) (c : CmdWord) : EntryWord :=
  c ++ ((0 : BitVec 16) ++ (guardId ++ ((0 : BitVec 3) ++ BitVec.ofNat 5 pos.val)))

/-- The command the decoder reads from a word given as a number: a command is one 32-bit word, so
every bit from 32 up is 0. -/
def decodeTableWord (nbits w : Nat) : Option Instr :=
  if w % 2 ^ nbits < 2 ^ 32 then (decode (BitVec.ofNat 32 (w % 2 ^ nbits))).toOption else none

end Sys2Proof
end

