-- ==== Sys2Proof/Machine/State.lean ====
section
/-!
DEFINITION. The machine state (spec file 10, R30 to R61) as plain data, the reasons a step can stop,
and the state at creation. `Arch` is exactly the record of R61; `State` adds the model's own fields.
-/

namespace Sys2Proof.Machine

/-- The fatal errors (R300 to R302). `peripheralFailure` keeps the hook's error value verbatim. -/
inductive FailureKind
  | chartMissing
  | stall
  | peripheralFailure (e : Nat)
deriving DecidableEq, Repr, Inhabited

/-- STATUS (R33). -/
inductive Status
  | running
  | failed (k : FailureKind)
deriving DecidableEq, Repr, Inhabited

/-- MEM as the bytes that are not 0x00, addresses strictly rising (R53, R80; notes/assumptions/13.md). -/
abbrev Memory := List Host.Cell

/-- Every field of R61 but MEM, PI and STATUS: what commands and hooks may write besides memory. -/
structure Regs where
  /-- MS, the main sequencer (R30). -/
  ms : Byte
  /-- PMS, the snapshot of MS at P0 (R32). -/
  pms : Byte
  /-- PA, the program address (R36). -/
  pa : Word
  /-- OA1 to OA4, the operand addressers (R37). -/
  oa1 : Word
  oa2 : Word
  oa3 : Word
  oa4 : Word
  /-- LR1, LR2, LR3, the length and auxiliary registers (R38). -/
  lr1 : Word
  lr2 : Word
  lr3 : Word
  /-- DA, the default address register (R40). -/
  da : Word
  /-- DO, the default operand register (R41). -/
  dO : Word
  /-- RR, the read-result register (R39). -/
  rr : Byte
  /-- FC, the function-code register (R42). -/
  fc : Byte
  /-- SB, the secondary operand byte (R44). -/
  sb : Byte
  /-- PCS, the peripheral-channel sequencer (R43). -/
  pcs : Byte
  /-- FS, the future-state register (R43). -/
  fs : Byte
  /-- CFA and CFB, the condition flip-flop groups (R45). -/
  cfa : Group
  cfb : Group
  /-- POWERED and HALTED (R47). -/
  powered : Bool
  halted : Bool
  /-- LOADING, STALLDIS, STEP, OPCALL (R48). -/
  loading : Bool
  stallDis : Bool
  stepMode : Bool
  opCall : Bool
  /-- INTP, interrupt present (R49, R330). -/
  intp : Bool
  /-- CNZ, the counting network's control bit (R50). -/
  cnz : Bool
  /-- CB1 to CB3, channel busy (R49). -/
  cb1 : Bool
  cb2 : Bool
  cb3 : Bool
  /-- REQ1 to REQ3, the raw channel requests (R49, R331). -/
  req1 : Bool
  req2 : Bool
  req3 : Bool
  /-- RSB, the register-selector bits; bits at or above N_RSB do not exist and are 0 (R46). -/
  rsb : BitVec 8
  /-- X, the further flags; bits at or above N_XFLAGS do not exist and are 0 (R46). -/
  x : BitVec 64
  /-- NOSEL, the source that drives the NO knot (R51). -/
  nosel : NoSrc
  /-- NISEL, the sources of the four NI quartets (R52). -/
  nisel : Quartets NiSel
  /-- CONSEL, the console register selector, 0 to 13 (R54). -/
  consel : Fin 14
  /-- CONSW, the console switch bank (R54). -/
  consw : Word
deriving DecidableEq, Repr, Inhabited

/-- The state record of R61. -/
structure Arch extends Regs where
  /-- MEM (R53). -/
  mem : Memory
  /-- PI, the pulse index, never the sentinel (R31). -/
  pi : Fin 20
  /-- STATUS (R33). -/
  status : Status
deriving DecidableEq, Repr, Inhabited

/-- K, the knot values of one pulse (R250). -/
structure Knots where
  no : Word
  na : Byte
  ni : Word
  cn : Word
  ch1a : Bool
  ch2a : Bool
  ch3a : Bool
  cpua : Bool
  jcv : Bool
deriving DecidableEq, Repr, Inhabited

/-- What the commands of a pulse read: the snapshot S0 and the knot values K (R174). -/
structure DispatchCtx where
  s0 : Arch
  k : Knots
deriving DecidableEq, Repr, Inhabited

/-- What the host does between two pulses (R286, R321, R325). -/
inductive HostCall
  /-- One call of `advance_pulse` (R140). -/
  | advancePulse
  /-- The control action `clear` (R280). -/
  | clear
  /-- The control action `load` (R281). -/
  | load
  /-- The control action `start` (R283). -/
  | start
  /-- The program load of a buffer and a length (R282). -/
  | programLoad (buf : List Byte) (n : Nat)
  /-- The console writes its register selector and switch bank (R284). -/
  | consoleWrite (sel : Fin 14) (sw : Word)
  /-- Every `on_setup` hook (R321). -/
  | setup
  /-- Every `on_teardown` hook (R325). -/
  | teardown
deriving DecidableEq, Repr, Inhabited

/-- The state of the model: the record of R61 (`toArch`) and the model's own fields. -/
structure State extends Arch where
  /-- The model's own: S0 and K while a pulse dispatches, `none` between pulses
  (notes/assumptions/3.md). -/
  disp : Option DispatchCtx
  /-- CHARTS, the entry words supplied before the run (R57; notes/assumptions/4.md). -/
  charts : RawCharts
  /-- GUARDS, supplied before the run (R58; notes/assumptions/4.md). -/
  guards : GuardTable
  /-- HOOKS, the names of the registered hooks in registration order (R59;
  notes/assumptions/4.md). -/
  hooks : List Nat
  /-- The model's own: what the host will call before it falls back on `advance_pulse`
  (notes/assumptions/5.md). -/
  calls : List HostCall
  /-- The model's own: how many calls into the world outside the block were made; it makes every
  answer of that world a fresh one (notes/assumptions/6.md). -/
  seq : Nat
deriving DecidableEq, Repr, Inhabited

/-- The fatal errors of R300 to R303, each with the MS and PI of the report and the state the failure
leaves, which keeps every write already made (R306) and has STATUS = Failed(kind) (R304). Raised by
`raiseFatal` alone; notes/assumptions/1.md. -/
inductive Fault
  /-- No chart for MS at the lookup of a pulse (R300). Safe: the spec names the error. -/
  | chartMissing (ms : Byte) (pi : Fin 20) (s : State)
  /-- MS after the P19 dispatch equals the P0 snapshot (R301). Safe: the spec names the error. -/
  | stall (ms : Byte) (pi : Fin 20) (s : State)
  /-- A hook returned the error `e` (R302). Safe: the spec names the error. -/
  | peripheralFailure (e : Nat) (ms : Byte) (pi : Fin 20) (s : State)
deriving DecidableEq, Repr

/-- Why a step has no outcome. -/
inductive Refusal
  /-- An instruction without a meaning; no arm of `exec` uses it. Safe. -/
  | notModelled (mnemonic : String)
  /-- `advance_pulse` or the setup called on a failed state (R151, R305, 93 F4); raised by
  `advancePulse` and `hostSetup`. Safe: the spec refuses it. -/
  | engineFailed
  /-- CHARTS or GUARDS did not pass the registration check (R118, R182); raised by `advancePulse`
  and `hostSetup`.
  Safe: the spec says such a configuration has no run. -/
  | illFormedConfiguration (why : DecodeError)
deriving DecidableEq, Repr

/-- Every field of `Regs` at its reset value: 0 but POWERED and HALTED (R61, R350). -/
def Regs.reset : Regs :=
  { ms := 0x00, pms := 0x00
    pa := 0, oa1 := 0, oa2 := 0, oa3 := 0, oa4 := 0, lr1 := 0, lr2 := 0, lr3 := 0, da := 0, dO := 0
    rr := 0, fc := 0, sb := 0, pcs := 0, fs := 0
    cfa := 0, cfb := 0
    powered := true, halted := true
    loading := false, stallDis := false, stepMode := false, opCall := false, intp := false, cnz := false
    cb1 := false, cb2 := false, cb3 := false, req1 := false, req2 := false, req3 := false
    rsb := 0, x := 0
    nosel := .pa, nisel := ⟨.cn, .cn, .cn, .cn⟩
    consel := 0, consw := 0 }

/-- The record of R61 at creation (R350): every memory byte 0x00, PI = 0, STATUS = Running. -/
def Arch.reset : Arch :=
  { Regs.reset with mem := [], pi := 0, status := .running }

/-- The machine right after creation (R350). No chart, guard or hook is registered and the host has
called nothing (notes/assumptions/4.md, 5.md). -/
def State.reset : State :=
  { Arch.reset with disp := none, charts := [], guards := [], hooks := [], calls := [], seq := 0 }

end Sys2Proof.Machine
end

