-- ==== Sys2Proof/Machine/Params.lean ====
section
/-!
DEFINITION. The open parameters of the configuration that read the machine state (spec R9): RES0_FN
(R259), the opaque guard predicates (R176) and the peripheral hooks (R320, R322). None has a body
(notes/assumptions/2.md, 6.md).
-/

namespace Sys2Proof

namespace Machine

/-- What a hook may do to the state (R322): new values for every register, flag, selection and console
field, and any number of memory bytes, in order. PI and STATUS are not among them, and the types keep
NOSEL, NISEL and CONSEL in range (notes/assumptions/7.md). -/
structure HookEffect where
  regs : Regs
  memWrites : List (Word × Byte)
deriving DecidableEq, Repr, Inhabited

/-- The result of one hook call: a new state or an error value (R320, R322). -/
inductive HookAnswer
  | ok (e : HookEffect)
  | err (e : Nat)
deriving DecidableEq, Repr, Inhabited

/-- The four calls of the hook contract (R320): each takes the hook's name, the number of the call
(which stands for the hook's own opaque context, R59) and the whole state. -/
structure HookFns where
  onSetup : Nat → Nat → Arch → HookAnswer
  onClock : Nat → Nat → Arch → HookAnswer
  onPulse : Nat → Nat → Arch → HookAnswer
  onTeardown : Nat → Nat → Arch → HookAnswer

end Machine

namespace Config

/-- RES0_FN, the condition of the CPU and channel-1 overlap (R259, D13). -/
opaque res0Fn : Machine.Arch → Bool

/-- The opaque guard predicates over S0 and K (R176, D20), by their numbers. -/
opaque guardPred : Nat → Machine.Arch → Machine.Knots → Bool

/-- `on_setup` (R321). -/
opaque onSetup : Nat → Nat → Machine.Arch → Machine.HookAnswer

/-- `on_clock` (R323). -/
opaque onClock : Nat → Nat → Machine.Arch → Machine.HookAnswer

/-- `on_pulse` (R324). -/
opaque onPulse : Nat → Nat → Machine.Arch → Machine.HookAnswer

/-- `on_teardown` (R325). -/
opaque onTeardown : Nat → Nat → Machine.Arch → Machine.HookAnswer

/-- The machine's own hooks. -/
def hookFns : Machine.HookFns := ⟨onSetup, onClock, onPulse, onTeardown⟩

end Config

end Sys2Proof
end

