-- ==== Sys2Proof/Machine/Ops.lean ====
section
/-!
DEFINITION. The named operations over memory and the state: reading and writing memory (spec R82,
R83), the masked write (R179), the updates of the state's parts, what the commands of a pulse read
(R174), and raising a fatal error (R300 to R306), which is all the exception entry the block has; it
has no return from one (R304).
-/

namespace Sys2Proof.Machine

/-! ## Memory -/

/-- `MemRead(a)` (R82). A byte that is not listed is 0x00, its reset value (R53). -/
def Memory.read : Memory → Word → Byte
  | [], _ => 0
  | (k, v) :: rest, a => if k = a.toNat then v else Memory.read rest a

/-- Puts a cell in front of the first cell of a higher address. -/
def Memory.insert (k : Nat) (v : Byte) : Memory → Memory
  | [] => [(k, v)]
  | c :: rest => if k < c.1 then (k, v) :: c :: rest else c :: Memory.insert k v rest

/-- Takes every cell of an address out. -/
def Memory.erase (m : Memory) (k : Nat) : Memory := m.filter fun c => c.1 != k

/-- `MemWrite(a, v)` (R83): 0x00 is stored as an absent cell. -/
def Memory.write (m : Memory) (a : Word) (v : Byte) : Memory :=
  if v = 0 then Memory.erase m a.toNat else Memory.insert a.toNat v (Memory.erase m a.toNat)

/-- Writes in order, the later over the earlier. -/
def Memory.writeAll : Memory → List (Word × Byte) → Memory
  | m, [] => m
  | m, (a, v) :: rest => Memory.writeAll (Memory.write m a v) rest

/-- Every address of the tail is above `k`, and so on. -/
def Memory.risingFrom (k : Nat) : Memory → Bool
  | [] => true
  | c :: rest => decide (k < c.1) && Memory.risingFrom c.1 rest

/-- The canonical form: addresses strictly rising and inside the 64K array, no listed byte 0x00. -/
def Memory.wf (m : Memory) : Bool :=
  (match m with
   | [] => true
   | c :: rest => Memory.risingFrom c.1 rest) &&
  m.all fun c => decide (c.1 < 65536) && c.2 != 0

/-! ## The masked write -/

/-- `WriteBits(d, m, v)` (R179). -/
def writeBits {w : Nat} (d m v : BitVec w) : BitVec w := (d &&& ~~~m) ||| (v &&& m)

/-- One bit of a group of flags. -/
def writeBit {w : Nat} (d : BitVec w) (i : Nat) (b : Bool) : BitVec w :=
  writeBits d (BitVec.twoPow w i) (if b then BitVec.allOnes w else 0)

/-- The low `n` bits. -/
def lowBits (w n : Nat) : BitVec w := BitVec.ofNat w (2 ^ n - 1)

/-! ## The parts of the state -/

/-- Everything in `Regs` at once. -/
def State.setRegs (r : Regs) (s : State) : State := { s with toRegs := r }

/-- MEM. -/
def State.setMem (m : Memory) (s : State) : State := { s with mem := m }

/-- PI, which the engine alone writes (R31). -/
def State.setPi (p : Fin 20) (s : State) : State := { s with pi := p }

/-- STATUS, which the engine alone writes (R322). -/
def State.setStatus (t : Status) (s : State) : State := { s with status := t }

/-- The dispatch context. -/
def State.setDisp (d : Option DispatchCtx) (s : State) : State := { s with disp := d }

/-- The host's calls. -/
def State.setCalls (c : List HostCall) (s : State) : State := { s with calls := c }

/-- One more call into the outside world. -/
def State.tick (s : State) : State := { s with seq := s.seq + 1 }

/-! ## Fatal errors -/

/-- The state a failure leaves: STATUS = Failed(kind), every write already made in place, PI at the
failing pulse (R303, R304, R306). The pulse's dispatch, if any, is over. -/
def State.failed (k : FailureKind) (s : State) : State := (s.setDisp none).setStatus (.failed k)

/-- Raising a fatal error: `fail k` of R148, with the report of R303. -/
def raiseFatal (k : FailureKind) (s : State) : Host.Outcome State Fault Refusal :=
  match k with
  | .chartMissing => .fault (.chartMissing s.ms s.pi (s.failed k))
  | .stall => .fault (.stall s.ms s.pi (s.failed k))
  | .peripheralFailure e => .fault (.peripheralFailure e s.ms s.pi (s.failed k))

/-- The state a fatal error leaves. -/
def Fault.state : Fault → State
  | .chartMissing _ _ s => s
  | .stall _ _ s => s
  | .peripheralFailure _ _ _ s => s

end Sys2Proof.Machine
end

