-- ==== Sys2Proof/Machine/Flags.lean ====
section
/-!
DEFINITION. The single-bit flags (spec R46, R112, R233): reading and writing one by its name. No
command computes a flag as a side effect (R234), so this is every flag operation the block has.
-/

namespace Sys2Proof.Machine

/-- `flag(f)` (R233). -/
def Regs.readFlag (r : Regs) : Flag → Bool
  | .cfa i => r.cfa.getLsbD i.val
  | .cfb i => r.cfb.getLsbD i.val
  | .powered => r.powered
  | .halted => r.halted
  | .loading => r.loading
  | .stallDis => r.stallDis
  | .stepMode => r.stepMode
  | .opCall => r.opCall
  | .intp => r.intp
  | .cnz => r.cnz
  | .cb1 => r.cb1
  | .cb2 => r.cb2
  | .cb3 => r.cb3
  | .req1 => r.req1
  | .req2 => r.req2
  | .req3 => r.req3
  | .rsb i => r.rsb.getLsbD i.val
  | .x i => r.x.getLsbD i.val

/-- `WriteBits(flag(f), 1, b)` (R179, R230, R231). -/
def Regs.writeFlag (f : Flag) (b : Bool) (r : Regs) : Regs :=
  match f with
  | .cfa i => { r with cfa := writeBit r.cfa i.val b }
  | .cfb i => { r with cfb := writeBit r.cfb i.val b }
  | .powered => { r with powered := b }
  | .halted => { r with halted := b }
  | .loading => { r with loading := b }
  | .stallDis => { r with stallDis := b }
  | .stepMode => { r with stepMode := b }
  | .opCall => { r with opCall := b }
  | .intp => { r with intp := b }
  | .cnz => { r with cnz := b }
  | .cb1 => { r with cb1 := b }
  | .cb2 => { r with cb2 := b }
  | .cb3 => { r with cb3 := b }
  | .req1 => { r with req1 := b }
  | .req2 => { r with req2 := b }
  | .req3 => { r with req3 := b }
  | .rsb i => { r with rsb := writeBit r.rsb i.val b }
  | .x i => { r with x := writeBit r.x i.val b }

/-- Clears every flag of a list (R280). -/
def Regs.clearFlags : List Flag → Regs → Regs
  | [], r => r
  | f :: fs, r => Regs.clearFlags fs (r.writeFlag f false)

/-- Only the flags the configuration has: RSB below N_RSB, X below N_XFLAGS (R46). -/
def Regs.keepExistingFlags (r : Regs) : Regs :=
  { r with rsb := r.rsb &&& lowBits 8 Config.nRsb.val, x := r.x &&& lowBits 64 Config.nXFlags.val }

end Sys2Proof.Machine
end

