-- ==== Sys2Proof/Machine/Knots.lean ====
section
/-!
DEFINITION. The knot network and condition evaluator (spec file 45). Every knot is a total function of
the state and the parameters (R264); nothing here writes state (R55, R250).
-/

namespace Sys2Proof.Machine

/-- The NO knot (R251), with the two forcing sources as arguments (R252). -/
def noKnot (force1 force2 : Word) (r : Regs) : Word :=
  match r.nosel with
  | .pa => r.pa
  | .oa1 => r.oa1
  | .oa2 => r.oa2
  | .oa3 => r.oa3
  | .oa4 => r.oa4
  | .lr1 => r.lr1
  | .lr2 => r.lr2
  | .force1 => force1
  | .force2 => force2
  | .consw => r.consw

/-- The counting network (R254): DO + 1 modulo 2^16, or DO. -/
def cnKnot (r : Regs) : Word := if r.cnz then r.dO + 1 else r.dO

/-- One quartet of NI when not all four select the counting network (R256). -/
def niQuartet (rr : Byte) : NiSel → BitVec 4
  | .cn => 0
  | .rrLow => rr.extractLsb' 0 4
  | .rrHigh => rr.extractLsb' 4 4
  | .zero => 0

/-- The NI knot (R255, R256): the whole of CN, or four quartets, quartet 3 highest. -/
def niKnot (r : Regs) : Word :=
  if r.nisel = ⟨.cn, .cn, .cn, .cn⟩ then cnKnot r
  else niQuartet r.rr r.nisel.q3 ++ (niQuartet r.rr r.nisel.q2 ++ (niQuartet r.rr r.nisel.q1 ++ niQuartet r.rr r.nisel.q0))

/-- The four channel-priority signals (R258). -/
structure Channels where
  ch1a : Bool
  ch2a : Bool
  ch3a : Bool
  cpua : Bool
deriving DecidableEq, Repr

/-- The channel-priority network (R258, R259) with RES0 as an argument. All four signals are in the
uninverted polarity; the source flags one of them, unnamed, as possibly inverted against the original
manual (R261, notes/assumptions/14.md). -/
def channels (res0 req1 req2 req3 : Bool) : Channels :=
  let ch1a := req1
  let ch3a := req3 && !req1
  let ch2a := req2 && !req1 && !req3
  ⟨ch1a, ch2a, ch3a, !(ch1a || ch2a || ch3a) || (ch1a && res0)⟩

/-- `cond(c)` (R262). -/
def jumpCond (r : Regs) (c : JumpCond) : Bool :=
  (match c.group with
   | .a => r.cfa
   | .b => r.cfb).getLsbD c.bit.val == c.polarity

/-- One pattern of the primary jump: the secondary operand byte fits and the condition holds (R262). -/
def patternHolds (r : Regs) (p : JumpPattern) : Bool := p.fits r.sb && jumpCond r p.cond

/-- The jump-condition-verified signal (R262) for a given JTAB. -/
def jcvKnot (t : JumpCodes) (r : Regs) : Bool :=
  (r.fc == t.jop && (patternHolds r t.p0 || patternHolds r t.p1 || patternHolds r t.p2 || patternHolds r t.p3)) ||
  (r.fc == t.sop1 && jumpCond r t.s1) ||
  (r.fc == t.sop2 && jumpCond r t.s2)

/-- The channel signals of a state (R258, R259). -/
def channelsOf (a : Arch) : Channels := channels (Config.res0Fn a) a.req1 a.req2 a.req3

/-- The NA knot (R253): NA_FN of the channel signals, PCS, MS and FS. -/
def naKnot (a : Arch) : Byte :=
  Config.naFn (channelsOf a).ch1a (channelsOf a).ch2a (channelsOf a).ch3a (channelsOf a).cpua a.pcs a.ms a.fs

/-- K, the knot values of a state (R250). -/
def knotsOf (a : Arch) : Knots :=
  { no := noKnot Config.force1 Config.force2 a.toRegs
    na := naKnot a
    ni := niKnot a.toRegs
    cn := cnKnot a.toRegs
    ch1a := (channelsOf a).ch1a
    ch2a := (channelsOf a).ch2a
    ch3a := (channelsOf a).ch3a
    cpua := (channelsOf a).cpua
    jcv := jcvKnot Config.jumpTable.codes a.toRegs }

end Sys2Proof.Machine
end

