-- ==== Sys2Proof/Machine/Operands.lean ====
section
/-!
DEFINITION. The operand forms of the commands: the destinations of an input transfer with their masks
(spec R105, R106, R200), the selections of an output transfer (R220, R222), the sources a command reads
from S0 and K (R174), and the guards (R175, R176).
-/

namespace Sys2Proof.Machine

/-- A destination as a 16-bit value, zero-extended; a condition group read as a byte has 0 in bit 7
(R45). -/
def Regs.readDest (r : Regs) : Dest → Word
  | .ms => r.ms.setWidth 16
  | .pa => r.pa
  | .oa1 => r.oa1
  | .oa2 => r.oa2
  | .oa3 => r.oa3
  | .oa4 => r.oa4
  | .lr1 => r.lr1
  | .lr2 => r.lr2
  | .lr3 => r.lr3
  | .rr => r.rr.setWidth 16
  | .da => r.da
  | .dO => r.dO
  | .fc => r.fc.setWidth 16
  | .sb => r.sb.setWidth 16
  | .pcs => r.pcs.setWidth 16
  | .fs => r.fs.setWidth 16
  | .cfa => r.cfa.setWidth 16
  | .cfb => r.cfb.setWidth 16

/-- `WriteBits(T.d, m, trunc_W(d)(v))` (R179, R200). -/
def Regs.writeDest (d : Dest) (m v : Word) (r : Regs) : Regs :=
  match d with
  | .ms => { r with ms := writeBits r.ms (m.setWidth 8) (v.setWidth 8) }
  | .pa => { r with pa := writeBits r.pa m v }
  | .oa1 => { r with oa1 := writeBits r.oa1 m v }
  | .oa2 => { r with oa2 := writeBits r.oa2 m v }
  | .oa3 => { r with oa3 := writeBits r.oa3 m v }
  | .oa4 => { r with oa4 := writeBits r.oa4 m v }
  | .lr1 => { r with lr1 := writeBits r.lr1 m v }
  | .lr2 => { r with lr2 := writeBits r.lr2 m v }
  | .lr3 => { r with lr3 := writeBits r.lr3 m v }
  | .rr => { r with rr := writeBits r.rr (m.setWidth 8) (v.setWidth 8) }
  | .da => { r with da := writeBits r.da m v }
  | .dO => { r with dO := writeBits r.dO m v }
  | .fc => { r with fc := writeBits r.fc (m.setWidth 8) (v.setWidth 8) }
  | .sb => { r with sb := writeBits r.sb (m.setWidth 8) (v.setWidth 8) }
  | .pcs => { r with pcs := writeBits r.pcs (m.setWidth 8) (v.setWidth 8) }
  | .fs => { r with fs := writeBits r.fs (m.setWidth 8) (v.setWidth 8) }
  | .cfa => { r with cfa := writeBits r.cfa (m.setWidth 7) (v.setWidth 7) }
  | .cfb => { r with cfb := writeBits r.cfb (m.setWidth 7) (v.setWidth 7) }

/-- The new selection of one quartet: kept when the quartet is not in QEN (R222). -/
def newSel (old : NiSel) : Option NiSel → NiSel
  | none => old
  | some s => s

/-- The selections after OT.NI (R222). -/
def updateSel (old : Quartets NiSel) (q : Quartets (Option NiSel)) : Quartets NiSel :=
  ⟨newSel old.q0 q.q0, newSel old.q1 q.q1, newSel old.q2 q.q2, newSel old.q3 q.q3⟩

/-- S0, the state a command or guard reads (R174). Outside a pulse's dispatch it is the state itself
(notes/assumptions/3.md). -/
def State.source (s : State) : Arch :=
  match s.disp with
  | some c => c.s0
  | none => s.toArch

/-- K, the knot values a command or guard reads (R174). Outside a pulse's dispatch they are computed
from the state itself (notes/assumptions/3.md). -/
def State.bus (s : State) : Knots :=
  match s.disp with
  | some c => c.k
  | none => knotsOf s.toArch

/-- A transfer into a destination under a mask (R200). -/
def State.transfer (d : Dest) (m v : Word) (s : State) : State := s.setRegs (s.toRegs.writeDest d m v)

/-- A write of one flag (R230 to R232). -/
def State.putFlag (f : Flag) (b : Bool) (s : State) : State := s.setRegs (s.toRegs.writeFlag f b)

/-- A signal of a guard literal (R113): a flag of S0 or a knot signal of K. -/
def signalHolds (a : Arch) (k : Knots) : Signal → Bool
  | .flag f => a.toRegs.readFlag f
  | .ch1a => k.ch1a
  | .ch2a => k.ch2a
  | .ch3a => k.ch3a
  | .cpua => k.cpua
  | .jcv => k.jcv

/-- A literal: the signal, or its negation (R176). -/
def literalHolds (a : Arch) (k : Knots) (l : Literal) : Bool := signalHolds a k l.sig == l.positive

/-- A guard over S0 and K (R175, R176). -/
def guardHolds (g : Guard) (a : Arch) (k : Knots) : Bool :=
  match g with
  | .all ls => ls.all (literalHolds a k)
  | .pred n => Config.guardPred n a k

end Sys2Proof.Machine
end

