-- ==== Sys2Proof/Machine/InputTransfer.lean ====
section
/-!
DEFINITION. The input-transfer family and the memory transfers (spec file 42). A command reads S0 and K
and writes the state being built (R174, R178). None raises an error (R183).
-/

namespace Sys2Proof.Machine

/-- IT.NO (R201). -/
def execItNo (d : Dest) (mask : Word) (s : State) : Host.Outcome State Fault Refusal :=
  .next (s.transfer d mask s.bus.no)

/-- IT.NA (R202): the 8-bit knot is zero-extended, so masked bits 15:8 are written with 0. -/
def execItNa (d : Dest) (mask : Word) (s : State) : Host.Outcome State Fault Refusal :=
  .next (s.transfer d mask (s.bus.na.setWidth 16))

/-- IT.NI (R203). -/
def execItNi (d : Dest) (mask : Word) (s : State) : Host.Outcome State Fault Refusal :=
  .next (s.transfer d mask s.bus.ni)

/-- IT.CN (R204). -/
def execItCn (d : Dest) (mask : Word) (s : State) : Host.Outcome State Fault Refusal :=
  .next (s.transfer d mask s.bus.cn)

/-- MR (R205): RR from the byte of S0's memory at K.NO. -/
def execMr (s : State) : Host.Outcome State Fault Refusal :=
  .next (s.transfer .rr 0x00FF ((s.source.mem.read s.bus.no).setWidth 16))

/-- MW (R206): the byte at K.NO from K.NI[7:0]. -/
def execMw (s : State) : Host.Outcome State Fault Refusal :=
  .next (s.setMem (s.mem.write s.bus.no (s.bus.ni.setWidth 8)))

end Sys2Proof.Machine
end

