-- ==== Sys2Proof/Machine/OutputTransfer.lean ====
section
/-!
DEFINITION. The output-transfer family (spec file 43). A selection is seen by the knots of the next
pulse (R221), since the commands of a pulse read the K computed before its dispatch.
-/

namespace Sys2Proof.Machine

/-- OT.NO (R220). -/
def execOtNo (src : NoSrc) (s : State) : Host.Outcome State Fault Refusal :=
  .next (s.setRegs { s.toRegs with nosel := src })

/-- OT.NI (R222). -/
def execOtNi (sel : Quartets (Option NiSel)) (s : State) : Host.Outcome State Fault Refusal :=
  .next (s.setRegs { s.toRegs with nisel := updateSel s.nisel sel })

end Sys2Proof.Machine
end

