-- ==== Sys2Proof/Machine/UpdateControl.lean ====
section
/-!
DEFINITION. The update and control family (spec file 44).
-/

namespace Sys2Proof.Machine

/-- SETF (R230). -/
def execSetf (f : Flag) (s : State) : Host.Outcome State Fault Refusal :=
  .next (s.putFlag f true)

/-- CLRF (R231). -/
def execClrf (f : Flag) (s : State) : Host.Outcome State Fault Refusal :=
  .next (s.putFlag f false)

/-- TOGF (R232): the toggle reads the flag as in S0. -/
def execTogf (f : Flag) (s : State) : Host.Outcome State Fault Refusal :=
  .next (s.putFlag f (!s.source.readFlag f))

/-- LATCH.AB (R236): CFB from S0's CFA, all seven bits. -/
def execLatchAB (s : State) : Host.Outcome State Fault Refusal :=
  .next (s.transfer .cfb 0x007F (s.source.cfa.setWidth 16))

/-- LATCH.BA (R237): CFA from S0's CFB, all seven bits. -/
def execLatchBA (s : State) : Host.Outcome State Fault Refusal :=
  .next (s.transfer .cfa 0x007F (s.source.cfb.setWidth 16))

end Sys2Proof.Machine
end

