-- ==== Sys2Proof/Machine/Dispatch.lean ====
section
/-!
DEFINITION. The effect of each command (spec R181): one arm per row of the opcode table.
-/

namespace Sys2Proof.Machine

def exec (i : Instr) (s : State) : Host.Outcome State Fault Refusal :=
  match i with
  | .itNo d mask => Sys2Proof.Machine.execItNo d mask s
  | .itNa d mask => Sys2Proof.Machine.execItNa d mask s
  | .itNi d mask => Sys2Proof.Machine.execItNi d mask s
  | .itCn d mask => Sys2Proof.Machine.execItCn d mask s
  | .otNo src => Sys2Proof.Machine.execOtNo src s
  | .otNi sel => Sys2Proof.Machine.execOtNi sel s
  | .setf f => Sys2Proof.Machine.execSetf f s
  | .clrf f => Sys2Proof.Machine.execClrf f s
  | .togf f => Sys2Proof.Machine.execTogf f s
  | .latchAB => Sys2Proof.Machine.execLatchAB s
  | .latchBA => Sys2Proof.Machine.execLatchBA s
  | .mr => Sys2Proof.Machine.execMr s
  | .mw => Sys2Proof.Machine.execMw s

end Sys2Proof.Machine
end

