-- ==== Sys2Proof/Machine/Pulse.lean ====
section
/-!
DEFINITION. The pulse/clock sequencer (spec file 40), the guarded dispatch (file 41) and the rounds of
peripheral hooks (file 60, section 2).
-/

namespace Sys2Proof.Machine

/-! ## Hooks -/

/-- The state after one hook returned its effect (R322). Bits of RSB and X that the configuration does
not have stay 0 (R46, notes/assumptions/7.md). -/
def State.afterHook (e : HookEffect) (s : State) : State :=
  ((s.setRegs e.regs.keepExistingFlags).setMem (s.mem.writeAll e.memWrites)).tick

/-- One round of hooks in registration order: it ends at the first error, and the effects of the hooks
that ran before it remain (R306, R326). -/
def runHooks (call : Nat → Nat → Arch → HookAnswer) : List Nat → State → State × Option Nat
  | [], s => (s, none)
  | h :: hs, s =>
    match call h s.seq s.toArch with
    | .ok e => runHooks call hs (s.afterHook e)
    | .err e => (s.tick, some e)

/-! ## Dispatch -/

/-- The commands of a chart that apply at a pulse, in declaration order: position and guard match, the
guard read at S0 and K (R174, R177). -/
def selected (chart : List Entry) (p : Fin 20) (s0 : Arch) (k : Knots) : List Instr :=
  (chart.filter fun e => e.pos == p && guardHolds e.guard s0 k).map Entry.cmd

/-- Commands applied one after the other to the state being built (R178, R179). -/
def runCommands : List Instr → State → Host.Outcome State Fault Refusal
  | [], s => .next s
  | i :: is, s =>
    match exec i s with
    | .next t => runCommands is t
    | .fault f => .fault f
    | .refused r => .refused r

/-- The state a dispatch begins with: S0 is the state itself, K was computed before the on-pulse hooks
(R174, R186). -/
def State.beginDispatch (k : Knots) (s : State) : State := s.setDisp (some ⟨s.toArch, k⟩)

/-- `dispatch(chart, p, K, T)` (R183). -/
def dispatch (chart : List Entry) (k : Knots) (s : State) : Host.Outcome State Fault Refusal :=
  match runCommands (selected chart s.pi s.toArch k) (s.beginDispatch k) with
  | .next t => .next (t.setDisp none)
  | .fault f => .fault f
  | .refused r => .refused r

/-! ## The pulse -/

/-- The next pulse index: the sentinel 20 is reached and left in the same step (R31, R147). -/
def nextPulse (p : Fin 20) : Fin 20 := if h : p.val + 1 < 20 then ⟨p.val + 1, h⟩ else 0

/-- Step 1 (R141): at P0, PMS is the snapshot of MS. -/
def State.beginCycle (s : State) : State :=
  if s.pi = 0 then s.setRegs { s.toRegs with pms := s.ms } else s

/-- Step 2 (R142): at P0, the on-clock hooks. -/
def clockHooks (h : HookFns) (s : State) : State × Option Nat :=
  if s.pi = 0 then runHooks h.onClock s.hooks s else (s, none)

/-- Steps 6 and 7 (R146, R147): the stall check at P19, then the advance. The diagnostic dump has no
effect on the state (D32). -/
def endPulse (s : State) : Host.Outcome State Fault Refusal :=
  if s.pi = 19 ∧ s.ms = s.pms then raiseFatal .stall s else .next (s.setPi (nextPulse s.pi))

/-- Steps 4 to 7 with the chart of step 3 (R144 to R147). -/
def pulseWithChart (h : HookFns) (chart : List Entry) (s : State) : Host.Outcome State Fault Refusal :=
  match runHooks h.onPulse s.hooks s with
  | (t, some e) => raiseFatal (.peripheralFailure e) t
  | (t, none) =>
    match dispatch chart (knotsOf s.toArch) t with
    | .next u => endPulse u
    | .fault f => .fault f
    | .refused r => .refused r

/-- Steps 3 to 7 (R143 to R147): the lookup with the MS of this moment. -/
def pulseFromLookup (h : HookFns) (table : ChartTable) (s : State) : Host.Outcome State Fault Refusal :=
  match table.lookup s.ms with
  | none => raiseFatal .chartMissing s
  | some chart => pulseWithChart h chart s

/-- Steps 1 to 7 on a registered table (R141 to R147). -/
def pulseOn (h : HookFns) (table : ChartTable) (s : State) : Host.Outcome State Fault Refusal :=
  match clockHooks h s.beginCycle with
  | (t, some e) => raiseFatal (.peripheralFailure e) t
  | (t, none) => pulseFromLookup h table t

/-- `advance_pulse` (R140, R148): refused on a failed state (R151) and on a configuration that does not
pass the registration check (R118, R182). -/
def advancePulse (h : HookFns) (s : State) : Host.Outcome State Fault Refusal :=
  if s.status = .running then
    match register s.guards s.charts with
    | .error e => .refused (.illFormedConfiguration e)
    | .ok table => pulseOn h table s
  else .refused .engineFailed

/-! ## The cycle -/

/-- Pulses until PI is 0 again, at most `n` of them (R149). -/
def pulsesToCycleEnd (h : HookFns) : Nat → State → Host.Outcome State Fault Refusal
  | 0, s => .next s
  | n + 1, s =>
    match advancePulse h s with
    | .next t => if t.pi = 0 then .next t else pulsesToCycleEnd h n t
    | .fault f => .fault f
    | .refused r => .refused r

/-- `run_cycle` (R149): a cycle has 20 live pulses (R31), so 20 are enough. -/
def runCycle (h : HookFns) (s : State) : Host.Outcome State Fault Refusal := pulsesToCycleEnd h 20 s

end Sys2Proof.Machine
end

