-- ==== Sys2Proof/Machine/Control.lean ====
section
/-!
DEFINITION. What the outside world does between two pulses (spec file 46, R321, R325, R353): the
control actions, the program load, the console inputs, the setup and teardown rounds, and the host's
driving loop.
-/

namespace Sys2Proof.Machine

/-- `clear` (R280): the flags of CLEAR_SET and HALTED. -/
def State.clear (clearSet : List Flag) (s : State) : State :=
  s.setRegs ((s.toRegs.clearFlags clearSet).writeFlag .halted false)

/-- `load` (R281): LOADING only. -/
def State.load (s : State) : State := s.putFlag .loading true

/-- `start` (R283): MS is DISPLAY_STATE, then START_FLAG is cleared. PI is kept. -/
def State.start (displayState : Byte) (startFlag : Flag) (s : State) : State :=
  (s.setRegs { s.toRegs with ms := displayState }).putFlag startFlag false

/-- The bytes a program load copies, with their addresses from 0 up (R282): `min(n, LOAD_MAX)` of them.
Past the end of the buffer each is free (notes/assumptions/8.md). -/
def loadBytes (buf : List Byte) (n seq : Nat) : List (Word × Byte) :=
  (List.range (min n Config.loadMax)).map fun i => (BitVec.ofNat 16 i, buf.getD i (Config.unreadByte seq i))

/-- The program load (R282). -/
def State.programLoad (buf : List Byte) (n : Nat) (s : State) : State :=
  (s.setMem (s.mem.writeAll (loadBytes buf n s.seq))).tick

/-- The console's write (R284). -/
def State.consoleWrite (sel : Fin 14) (sw : Word) (s : State) : State :=
  s.setRegs { s.toRegs with consel := sel, consw := sw }

/-- The setup round (R321): the first error is PeripheralFailure and no pulse is run. It comes after the
check of the tables (R353, steps 2 and 3), so tables that do not pass have no setup round. -/
def hostSetup (h : HookFns) (s : State) : Host.Outcome State Fault Refusal :=
  if s.status = .running then
    match register s.guards s.charts with
    | .error e => .refused (.illFormedConfiguration e)
    | .ok _ =>
      match runHooks h.onSetup s.hooks s with
      | (t, some e) => raiseFatal (.peripheralFailure e) t
      | (t, none) => .next t
  else .refused .engineFailed

/-- The teardown round (R325): its error changes no result. -/
def State.teardown (h : HookFns) (s : State) : State := (runHooks h.onTeardown s.hooks s).1

/-- One call of the host (R286). -/
def hostCall (h : HookFns) (c : HostCall) (s : State) : Host.Outcome State Fault Refusal :=
  match c with
  | .advancePulse => advancePulse h s
  | .clear => .next (s.clear Config.clearSet)
  | .load => .next s.load
  | .start => .next (s.start Config.displayState Config.startFlag)
  | .programLoad buf n => .next (s.programLoad buf n)
  | .consoleWrite sel sw => .next (s.consoleWrite sel sw)
  | .setup => hostSetup h s
  | .teardown => .next (s.teardown h)

/-- One turn of the driving loop: the next call the host has waiting, or one `advance_pulse` (R153,
R285; notes/assumptions/5.md). -/
def hostTurn (h : HookFns) (s : State) : Host.Outcome State Fault Refusal :=
  match s.calls with
  | [] => advancePulse h s
  | c :: cs => hostCall h c (s.setCalls cs)

/-- A chart table with one value's chart replaced, the values in rising order. -/
def putChart (ms : Byte) (ws : List EntryWord) : RawCharts → RawCharts
  | [] => [(ms, ws)]
  | (k, old) :: rest =>
    if ms.toNat < k.toNat then (ms, ws) :: (k, old) :: rest
    else if ms = k then (ms, ws) :: rest
    else (k, old) :: putChart ms ws rest

/-- The state whose next step runs the one command word `c`: the chart of the current MS is that one
entry at the current pulse under no guard, the engine runs, and no hook or host call comes before it
(notes/assumptions/4.md). -/
def State.withCommand (c : CmdWord) (s : State) : State :=
  { s with
    status := .running
    hooks := []
    calls := []
    charts := putChart s.ms [encodeEntry s.pi 0 c] s.charts }

end Sys2Proof.Machine
end

