-- ==== Sys2Proof/Safety.lean ====
section
/-!
DEFINITION. The terms the claims use: what an outcome leaves unchanged, what a command writes, the
illegal command words as the spec lists them (R117), and the invariant of the machine.
-/

namespace Sys2Proof.Machine

/-! ## Frames -/

/-- Every register and condition group reads as before. -/
def SameRegs (s t : State) : Prop := ∀ d : Dest, t.readDest d = s.readDest d

/-- Every flag reads as before. -/
def SameFlags (s t : State) : Prop := ∀ f : Flag, t.readFlag f = s.readFlag f

/-- Every byte of memory reads as before. -/
def SameMem (s t : State) : Prop := ∀ a : Word, t.mem.read a = s.mem.read a

/-- The knot selections are as before. -/
def SameSelections (s t : State) : Prop := t.nosel = s.nosel ∧ t.nisel = s.nisel

/-- The console inputs are as before. -/
def SameConsole (s t : State) : Prop := t.consel = s.consel ∧ t.consw = s.consw

/-- The supplied tables and the registered hooks are as before. -/
def SameTables (s t : State) : Prop := t.charts = s.charts ∧ t.guards = s.guards ∧ t.hooks = s.hooks

/-- What no command writes is as before: PMS, PI, STATUS, the console inputs, the tables and the
model's own fields. -/
def SameOutside (s t : State) : Prop :=
  t.pms = s.pms ∧ t.pi = s.pi ∧ t.status = s.status ∧ SameConsole s t ∧ SameTables s t ∧
  t.disp = s.disp ∧ t.calls = s.calls ∧ t.seq = s.seq

/-- The flags that are bits of a condition group. -/
def isGroupFlag : Flag → Bool
  | .cfa _ | .cfb _ => true
  | .powered | .halted | .loading | .stallDis | .stepMode | .opCall | .intp | .cnz
  | .cb1 | .cb2 | .cb3 | .req1 | .req2 | .req3 | .rsb _ | .x _ => false

/-- The flags outside the condition groups read as before. -/
def SameOtherFlags (s t : State) : Prop := ∀ f : Flag, isGroupFlag f = false → t.readFlag f = s.readFlag f

/-- The outcome is a next state in which the bits of `d` inside `m` are those of `v` and nothing else
changed. -/
def WritesMasked (o : Host.Outcome State Fault Refusal) (s : State) (d : Dest) (m v : Word) : Prop :=
  ∃ t, o = .next t ∧
    (∀ j, j < d.width → (t.readDest d).getLsbD j = if m.getLsbD j then v.getLsbD j else (s.readDest d).getLsbD j) ∧
    (∀ d', d' ≠ d → t.readDest d' = s.readDest d') ∧
    SameOtherFlags s t ∧ SameMem s t ∧ SameSelections s t ∧ SameOutside s t

/-- The outcome is a next state in which the flag `f` is `b` and nothing else changed. -/
def WritesFlag (o : Host.Outcome State Fault Refusal) (s : State) (f : Flag) (b : Bool) : Prop :=
  ∃ t, o = .next t ∧
    t.readFlag f = b ∧ (∀ g, g ≠ f → t.readFlag g = s.readFlag g) ∧
    (∀ d, d ≠ .cfa → d ≠ .cfb → t.readDest d = s.readDest d) ∧
    SameMem s t ∧ SameSelections s t ∧ SameOutside s t

/-! ## What a command writes -/

/-- A storage location at the grain commands write it (R179): one bit of a destination, one flag (a bit
of a condition group is both), the NO selection, the selection of one NI quartet, one byte of memory. -/
inductive Loc
  | bit (d : Dest) (j : Fin 16)
  | flag (f : Flag)
  | nosel
  | nisel (q : Fin 4)
  | byte (a : Word)
deriving DecidableEq, Repr

/-- The selection of quartet `q`. -/
def quartet {α : Type} (x : Quartets α) (q : Fin 4) : α :=
  match q with
  | 0 => x.q0
  | 1 => x.q1
  | 2 => x.q2
  | 3 => x.q3

/-- Two states hold the same at a location. -/
def AgreeAt (l : Loc) (s t : State) : Prop :=
  match l with
  | .bit d j => (s.readDest d).getLsbD j.val = (t.readDest d).getLsbD j.val
  | .flag f => s.readFlag f = t.readFlag f
  | .nosel => s.nosel = t.nosel
  | .nisel q => quartet s.nisel q = quartet t.nisel q
  | .byte a => s.mem.read a = t.mem.read a

/-- The bits a masked transfer writes (R200); a bit of a condition group is also a flag (R208, R233). -/
def transferWrites (d : Dest) (m : Word) : Loc → Bool
  | .bit d' j => d == d' && m.getLsbD j.val && decide (j.val < d.width)
  | .flag f =>
    match f with
    | .cfa i => d == .cfa && m.getLsbD i.val
    | .cfb i => d == .cfb && m.getLsbD i.val
    | .powered | .halted | .loading | .stallDis | .stepMode | .opCall | .intp | .cnz
    | .cb1 | .cb2 | .cb3 | .req1 | .req2 | .req3 | .rsb _ | .x _ => false
  | .nosel | .nisel _ | .byte _ => false

/-- The bit a flag command writes (R230, R233). -/
def flagWrites (f : Flag) : Loc → Bool
  | .bit d j =>
    match f with
    | .cfa i => d == .cfa && i.val == j.val
    | .cfb i => d == .cfb && i.val == j.val
    | .powered | .halted | .loading | .stallDis | .stepMode | .opCall | .intp | .cnz
    | .cb1 | .cb2 | .cb3 | .req1 | .req2 | .req3 | .rsb _ | .x _ => false
  | .flag g => f == g
  | .nosel | .nisel _ | .byte _ => false

/-- The locations a command writes (R179), with the knot values of its pulse. -/
def commandWrites (k : Knots) (i : Instr) (l : Loc) : Bool :=
  match i with
  | .itNo d m | .itNa d m | .itNi d m | .itCn d m => transferWrites d m l
  | .otNo _ => l == .nosel
  | .otNi q =>
    match l with
    | .nisel p => (quartet q p).isSome
    | .bit _ _ | .flag _ | .nosel | .byte _ => false
  | .setf f | .clrf f | .togf f => flagWrites f l
  | .latchAB => transferWrites .cfb 0x007F l
  | .latchBA => transferWrites .cfa 0x007F l
  | .mr => transferWrites .rr 0x00FF l
  | .mw => l == .byte k.no

/-! ## Illegal command words -/

/-- The illegal command words, as R117 lists them. -/
def IllegalWord (c : CmdWord) : Prop :=
  let cls := (c.extractLsb' 28 4).toNat
  let knot := (c.extractLsb' 24 4).toNat
  (cls = 0 ∨ 9 ≤ cls) ∨
  (cls = 1 ∧ (4 ≤ knot ∨ 0x12 ≤ (c.extractLsb' 16 8).toNat ∨ c.extractLsb' 0 16 = 0 ∨
    ∃ d : Dest, d.id = c.extractLsb' 16 8 ∧
      ((∀ lo n, lo + n ≤ 16 → c.extractLsb' 0 16 ≠ maskRun lo n) ∨
       ∃ j, d.width ≤ j ∧ (c.extractLsb' 0 16).getLsbD j = true))) ∨
  (cls = 2 ∧ ((knot ≠ 0 ∧ knot ≠ 2) ∨
    (knot = 0 ∧ (c.extractLsb' 4 20 ≠ 0 ∨ 10 ≤ (c.extractLsb' 0 4).toNat)) ∨
    (knot = 2 ∧ (c.extractLsb' 12 12 ≠ 0 ∨ c.extractLsb' 8 4 = 0 ∨
      ∃ q, q < 4 ∧ c.getLsbD (8 + q) = false ∧ c.extractLsb' (2 * q) 2 ≠ 0)))) ∨
  ((cls = 3 ∨ cls = 4 ∨ cls = 5) ∧
    (c.extractLsb' 8 20 ≠ 0 ∨ ∀ f : Flag, f.legal = true → f.id ≠ c.extractLsb' 0 8)) ∨
  (cls = 6 ∧ c.extractLsb' 1 27 ≠ 0) ∨
  ((cls = 7 ∨ cls = 8) ∧ c.extractLsb' 0 28 ≠ 0)

/-! ## Runs -/

/-- A direction of the per-cycle latch. The spec leaves it open (R9, D21, R235), and so does the model:
it is an argument of the convention. -/
inductive LatchDir
  | ab | ba
deriving DecidableEq, Repr

/-- The latch command of a direction (R236, R237). -/
def LatchDir.command : LatchDir → Instr
  | .ab => .latchAB
  | .ba => .latchBA

/-- The group a direction copies. -/
def LatchDir.source : LatchDir → Dest
  | .ab => .cfa
  | .ba => .cfb

/-- The group a direction fills. -/
def LatchDir.target : LatchDir → Dest
  | .ab => .cfb
  | .ba => .cfa

/-- The convention LATCH_PULSE as a premise on a chart (R238, D21), with the direction and the position,
both open, as arguments. DESIGN CHOICE of its form (notes/assumptions/17.md): an unguarded entry at `p`
holds the latch, and no other entry at `p` writes the group the latch fills. -/
def LatchesAt (dir : LatchDir) (p : Fin 20) (chart : List Entry) : Prop :=
  ∃ pre post, chart = pre ++ ⟨p, .all [], dir.command⟩ :: post ∧
    ∀ e, e ∈ pre ++ post → e.pos = p →
      ∀ (k : Knots) (j : Fin 16), commandWrites k e.cmd (.bit dir.target j) = false

/-- No entry of any chart holds a transfer into MS. -/
def NeverWritesMs (table : ChartTable) : Prop :=
  ∀ ms chart e, (ms, chart) ∈ table → e ∈ chart → ∀ (k : Knots) (j : Fin 16), commandWrites k e.cmd (.bit .ms j) = false

/-- The engine stands between two pulses, ready to run one: no dispatch is open, the host has nothing
else to do, no hook is registered, and the tables pass the registration check. -/
structure ReadyAlone (s : State) (table : ChartTable) : Prop where
  running : s.status = .running
  noCalls : s.calls = []
  noHooks : s.hooks = []
  noDispatch : s.disp = none
  tables : register s.guards s.charts = .ok table

/-- The invariant: memory is in its canonical form, flags the configuration does not have read 0
(R46), and no dispatch is open between two steps (R55). -/
structure Inv (s : State) : Prop where
  memory : s.mem.wf = true
  rsbBits : ∀ i : Fin 8, Config.nRsb.val ≤ i.val → s.readFlag (.rsb i) = false
  xBits : ∀ i : Fin 64, Config.nXFlags.val ≤ i.val → s.readFlag (.x i) = false
  noDispatch : s.disp = none

end Sys2Proof.Machine
end

