-- ==== Sys2Proof/Certificates/Slice0/Obligations.lean ====
section
/-!
DEFINITION. The statements about this model, in the order of the spec's files. Each docstring names the
rules it formalises.
-/

open Sys2Proof Sys2Proof.Machine

/-! ## Encoding (file 30) -/

/-- Decoding the word of a command that has one gives the command back (R103 to R116). -/
def Obligations.DecodeOfEncode : Prop :=
  ∀ i : Instr, i.wf = true → decode (encode i) = .ok i

/-- Every word that decodes is the one word of a command that has an encoding, so no bit of a command
word is dropped (R115: the rows are disjoint). -/
def Obligations.EncodeOfDecode : Prop :=
  ∀ (c : CmdWord) (i : Instr), decode c = .ok i → i.wf = true ∧ encode i = c

/-- The worked encodings of R122: each command word, and each entry word at P19 without a guard, is the
encoding of the command the text names and decodes to it; and the word of MR at P5 under guard G3. -/
def Obligations.WorkedEncodings : Prop :=
  let rows : List (Nat × Instr) :=
    [(0x100600F0, .itNo .lr1 0x00F0), (0x110000FF, .itNa .ms 0x00FF), (0x130BFFFF, .itCn .dO 0xFFFF),
     (0x1210007F, .itNi .cfa 0x007F), (0x20000001, .otNo .oa1), (0x20000009, .otNo .consw),
     (0x22000F09, .otNi ⟨some .rrLow, some .rrHigh, some .cn, some .cn⟩),
     (0x22000F00, .otNi ⟨some .cn, some .cn, some .cn, some .cn⟩),
     (0x30000017, .setf .cnz), (0x40000011, .clrf .halted), (0x50000006, .togf (.cfa 6)),
     (0x60000000, .latchAB), (0x60000001, .latchBA), (0x70000000, .mr), (0x80000000, .mw)]
  (∀ r, r ∈ rows →
    encode r.2 = BitVec.ofNat 32 r.1 ∧ encodeEntry 19 0 (encode r.2) = BitVec.ofNat 64 (r.1 * 2 ^ 32 + 0x13) ∧
    decode (BitVec.ofNat 32 r.1) = .ok r.2 ∧
    decodeEntry [] (BitVec.ofNat 64 (r.1 * 2 ^ 32 + 0x13)) = .ok ⟨19, .all [], r.2⟩) ∧
  encodeEntry 5 3 (encode .mr) = 0x7000000000000305 ∧
  ∀ gs g, guardOfId gs 3 = .ok g → decodeEntry gs 0x7000000000000305 = .ok ⟨5, g, .mr⟩

/-- A command word is refused exactly when it is one of the illegal words R117 lists. -/
def Obligations.IllegalWordsAreRefused : Prop :=
  ∀ c : CmdWord, (∃ e, decode c = .error e) ↔ IllegalWord c

/-- An entry word decodes exactly when its reserved bits are 0, its position is live, its guard is
absent or defined, and its command word decodes; then it decodes to those three (R100 to R102, R116). -/
def Obligations.EntryWordDecoding : Prop :=
  ∀ (gs : GuardTable) (e : EntryWord) (n : Entry),
    decodeEntry gs e = .ok n ↔
      e.extractLsb' 5 3 = 0 ∧ e.extractLsb' 16 16 = 0 ∧
      (e.extractLsb' 0 5).toNat = n.pos.val ∧
      guardOfId gs (e.extractLsb' 8 8) = .ok n.guard ∧
      decode (e.extractLsb' 32 32) = .ok n.cmd

/-! ## Reset (files 10 and 70) -/

/-- The state at creation, field by field (R61, R350); every byte of memory reads 0x00 (R53). -/
def Obligations.CreationReset : Prop :=
  let s := State.reset
  s.ms = 0x00 ∧ s.pi = 0 ∧ s.pms = 0x00 ∧ s.status = .running ∧
  (∀ d : Dest, s.readDest d = 0) ∧
  s.cfa = 0 ∧ s.cfb = 0 ∧
  (∀ f : Flag, s.readFlag f = decide (f = .powered ∨ f = .halted)) ∧
  s.nosel = .pa ∧ s.nisel = ⟨.cn, .cn, .cn, .cn⟩ ∧
  (∀ a : Word, s.mem.read a = 0x00) ∧
  s.consel = 0 ∧ s.consw = 0

/-! ## Knot network (file 45) -/

/-- The NO knot is the source whose id NOSEL holds, and NOSEL holds no other id (R251). -/
def Obligations.NoKnotBySelection : Prop :=
  ∀ a : Arch,
    a.nosel.id.toNat ≤ 9 ∧
    (a.nosel.id = 0 → (knotsOf a).no = a.pa) ∧
    (a.nosel.id = 1 → (knotsOf a).no = a.oa1) ∧
    (a.nosel.id = 2 → (knotsOf a).no = a.oa2) ∧
    (a.nosel.id = 3 → (knotsOf a).no = a.oa3) ∧
    (a.nosel.id = 4 → (knotsOf a).no = a.oa4) ∧
    (a.nosel.id = 5 → (knotsOf a).no = a.lr1) ∧
    (a.nosel.id = 6 → (knotsOf a).no = a.lr2) ∧
    (a.nosel.id = 7 → (knotsOf a).no = Config.force1) ∧
    (a.nosel.id = 8 → (knotsOf a).no = Config.force2) ∧
    (a.nosel.id = 9 → (knotsOf a).no = a.consw)

/-- The counting network adds one modulo 2^16 when CNZ is set and passes DO through otherwise, and no
output transfer can select a source for it (R254). -/
def Obligations.CountingNetwork : Prop :=
  (∀ a : Arch,
    (a.cnz = true → (knotsOf a).cn.toNat = (a.dO.toNat + 1) % 65536) ∧
    (a.cnz = false → (knotsOf a).cn = a.dO)) ∧
  ∀ c : CmdWord, c.extractLsb' 28 4 = 2 → c.extractLsb' 24 4 = 3 → decode c = .error .reservedOtKnot

/-- The NI knot: CN when all four quartets select it, else each quartet on its own, a CN selection
falling back to zero (R256). -/
def Obligations.NiKnotAllOrNothing : Prop :=
  ∀ a : Arch,
    ((∀ q, quartet a.nisel q = .cn) → (knotsOf a).ni = (knotsOf a).cn) ∧
    ((∃ q, quartet a.nisel q ≠ .cn) → ∀ q : Fin 4,
      (quartet a.nisel q = .cn → (knotsOf a).ni.extractLsb' (4 * q.val) 4 = 0) ∧
      (quartet a.nisel q = .rrLow → (knotsOf a).ni.extractLsb' (4 * q.val) 4 = a.rr.extractLsb' 0 4) ∧
      (quartet a.nisel q = .rrHigh → (knotsOf a).ni.extractLsb' (4 * q.val) 4 = a.rr.extractLsb' 4 4) ∧
      (quartet a.nisel q = .zero → (knotsOf a).ni.extractLsb' (4 * q.val) 4 = 0))

/-- The channel-priority signals (R258), and when more than one of them is true (R259): CH1A and CPUA
both exactly under RES0 with channel 1 requesting, and exactly one signal in every other case. -/
def Obligations.ChannelPriority : Prop :=
  ∀ a : Arch,
    let k := knotsOf a
    k.ch1a = a.req1 ∧
    k.ch3a = (a.req3 && !a.req1) ∧
    k.ch2a = (a.req2 && !a.req1 && !a.req3) ∧
    k.cpua = (!(k.ch1a || k.ch2a || k.ch3a) || (Config.res0Fn a && k.ch1a)) ∧
    (k.ch1a && k.cpua) = (Config.res0Fn a && a.req1) ∧
    ([k.ch1a, k.ch2a, k.ch3a, k.cpua].filter id).length = (if Config.res0Fn a && a.req1 then 2 else 1)

/-- The NA knot is NA_FN of the channel signals, PCS, MS and FS, and has no output-transfer selection
(R253). -/
def Obligations.NaKnotInputs : Prop :=
  (∀ a : Arch,
    let k := knotsOf a
    k.na = Config.naFn k.ch1a k.ch2a k.ch3a k.cpua a.pcs a.ms a.fs) ∧
  ∀ c : CmdWord, c.extractLsb' 28 4 = 2 → c.extractLsb' 24 4 = 1 → decode c = .error .reservedOtKnot

/-- The jump-condition-verified signal, as the formula of R262 over the parameter JTAB, and its place
among the signals of a guard (id 0x84). -/
def Obligations.JumpConditionVerified : Prop :=
  (∀ a : Arch,
    let t := Config.jumpTable.codes
    let cond := fun c : JumpCond => (if c.group = .a then a.cfa else a.cfb).getLsbD c.bit.val = c.polarity
    ((knotsOf a).jcv = true ↔
      (a.fc = t.jop ∧ ∃ p, p ∈ [t.p0, t.p1, t.p2, t.p3] ∧ a.sb &&& p.mask = p.value ∧ cond p.cond) ∨
      (a.fc = t.sop1 ∧ cond t.s1) ∨
      (a.fc = t.sop2 ∧ cond t.s2))) ∧
  Signal.ofId 0x84 = some .jcv ∧ ∀ (a : Arch) (k : Knots), signalHolds a k .jcv = k.jcv

/-- For a legal JTAB (R263), the function code and the secondary byte fix the one condition that JCV
reads: the pattern that fits, or the satellite's, or none (R262, R263); and the knots read the machine's
own JTAB. -/
def Obligations.JumpReadsOneCondition : Prop :=
  (∀ (j : JumpTable) (r : Regs),
    let t := j.codes
    (∀ p, p ∈ [t.p0, t.p1, t.p2, t.p3] → r.fc = t.jop → p.fits r.sb = true → jcvKnot t r = jumpCond r p.cond) ∧
    (r.fc = t.jop → (∀ p, p ∈ [t.p0, t.p1, t.p2, t.p3] → p.fits r.sb = false) → jcvKnot t r = false) ∧
    (r.fc = t.sop1 → jcvKnot t r = jumpCond r t.s1) ∧
    (r.fc = t.sop2 → jcvKnot t r = jumpCond r t.s2) ∧
    (r.fc ≠ t.jop → r.fc ≠ t.sop1 → r.fc ≠ t.sop2 → jcvKnot t r = false)) ∧
  ∀ a : Arch, (knotsOf a).jcv = jcvKnot Config.jumpTable.codes a.toRegs

/-! ## The commands (files 42, 43, 44) -/

/-- During a dispatch a command reads S0 and K (R174). Outside a dispatch it reads the state itself and
the knots of the state: this second half is the model's choice (notes/assumptions/3.md). -/
def Obligations.CommandSources : Prop :=
  ∀ s : State,
    (∀ c, s.disp = some c → s.source = c.s0 ∧ s.bus = c.k) ∧
    (s.disp = none → s.source = s.toArch ∧ s.bus = knotsOf s.toArch)

/-- IT.NO, IT.NA, IT.NI and IT.CN complete in every state, for every destination and mask: the masked
bits of the destination take the knot's bits (NA zero-extended), and nothing else changes (R200 to R204,
R207, R208). -/
def Obligations.InputTransfersWriteMaskedBits : Prop :=
  ∀ (d : Dest) (m : Word) (s : State),
    WritesMasked (exec (.itNo d m) s) s d m s.bus.no ∧
    WritesMasked (exec (.itNa d m) s) s d m (s.bus.na.setWidth 16) ∧
    WritesMasked (exec (.itNi d m) s) s d m s.bus.ni ∧
    WritesMasked (exec (.itCn d m) s) s d m s.bus.cn

/-- MR completes in every state: RR is the byte of S0's memory at K.NO, and nothing else changes (R205). -/
def Obligations.MemoryReadIntoRr : Prop :=
  ∀ s : State, ∃ t, exec .mr s = .next t ∧
    t.rr = s.source.mem.read s.bus.no ∧
    (∀ d, d ≠ .rr → t.readDest d = s.readDest d) ∧
    SameFlags s t ∧ SameMem s t ∧ SameSelections s t ∧ SameOutside s t

/-- MW completes in every state: the byte at K.NO is K.NI[7:0], and every other byte, register, flag and
selection is unchanged (R206). -/
def Obligations.MemoryWriteFromNi : Prop :=
  ∀ s : State, ∃ t, exec .mw s = .next t ∧
    t.mem.read s.bus.no = s.bus.ni.extractLsb' 0 8 ∧
    (∀ a, a ≠ s.bus.no → t.mem.read a = s.mem.read a) ∧
    SameRegs s t ∧ SameFlags s t ∧ SameSelections s t ∧ SameOutside s t

/-- OT.NO completes in every state: NOSEL is the source named, and nothing else changes (R220). -/
def Obligations.SelectNoSource : Prop :=
  ∀ (src : NoSrc) (s : State), ∃ t, exec (.otNo src) s = .next t ∧
    t.nosel = src ∧ t.nisel = s.nisel ∧
    SameRegs s t ∧ SameFlags s t ∧ SameMem s t ∧ SameOutside s t

/-- OT.NI completes in every state: each quartet in QEN takes its new selector, the others keep theirs,
and nothing else changes (R222). -/
def Obligations.SelectNiSources : Prop :=
  ∀ (sel : Quartets (Option NiSel)) (s : State), ∃ t, exec (.otNi sel) s = .next t ∧
    (∀ (q : Fin 4) (x : NiSel), quartet sel q = some x → quartet t.nisel q = x) ∧
    (∀ q : Fin 4, quartet sel q = none → quartet t.nisel q = quartet s.nisel q) ∧
    t.nosel = s.nosel ∧
    SameRegs s t ∧ SameFlags s t ∧ SameMem s t ∧ SameOutside s t

/-- SETF, CLRF and TOGF complete in every state, for every flag: SETF writes 1, CLRF writes 0, TOGF writes
the inverse of the flag as in S0, each to that one flag alone (R230 to R234). -/
def Obligations.FlagCommandsWriteOneFlag : Prop :=
  ∀ (f : Flag) (s : State),
    WritesFlag (exec (.setf f) s) s f true ∧
    WritesFlag (exec (.clrf f) s) s f false ∧
    WritesFlag (exec (.togf f) s) s f (!s.source.readFlag f)

/-- LATCH.AB completes in every state: CFB is S0's CFA, and nothing else changes (R236). -/
def Obligations.LatchBFromA : Prop :=
  ∀ s : State, ∃ t, exec .latchAB s = .next t ∧
    t.cfb = s.source.cfa ∧
    (∀ d, d ≠ .cfb → t.readDest d = s.readDest d) ∧
    SameOtherFlags s t ∧ SameMem s t ∧ SameSelections s t ∧ SameOutside s t

/-- LATCH.BA completes in every state: CFA is S0's CFB, and nothing else changes (R237). -/
def Obligations.LatchAFromB : Prop :=
  ∀ s : State, ∃ t, exec .latchBA s = .next t ∧
    t.cfa = s.source.cfb ∧
    (∀ d, d ≠ .cfa → t.readDest d = s.readDest d) ∧
    SameOtherFlags s t ∧ SameMem s t ∧ SameSelections s t ∧ SameOutside s t

/-- No command writes PMS, PI, STATUS, the console inputs or the tables (R31, R32, R57, R284), and no
command but MW writes memory (R84). -/
def Obligations.CommandsKeepTheRest : Prop :=
  ∀ (i : Instr) (s t : State), exec i s = .next t → SameOutside s t ∧ (i ≠ .mw → t.mem = s.mem)

/-- A command that changes the main sequencer is an input transfer into MS (R207). -/
def Obligations.OnlyTransfersIntoMsMoveIt : Prop :=
  ∀ (i : Instr) (s t : State), exec i s = .next t → t.ms ≠ s.ms → ∃ k m, i = Instr.it k .ms m

/-! ## Commands of one pulse (file 41, and the hazards of file 70) -/

/-- A command writes exactly the locations R179 says, and what it writes there depends on S0 and K
alone, not on the state being built (R178). -/
def Obligations.CommandWritesItsLocations : Prop :=
  ∀ (i : Instr) (s t : State) (c : DispatchCtx), s.disp = some c → exec i s = .next t →
    (∀ l, commandWrites c.k i l = false → AgreeAt l s t) ∧
    (∀ s' t', s'.disp = some c → exec i s' = .next t' → ∀ l, commandWrites c.k i l = true → AgreeAt l t t')

/-- Two commands of one pulse with no written location in common both apply, in either order, with the
same result; where they share a location the later one's value stands (R180). -/
def Obligations.IndependentOrLaterWins : Prop :=
  ∀ (i j : Instr) (s u v : State) (c : DispatchCtx), s.disp = some c → exec i s = .next u → exec j s = .next v →
    ∃ t t', runCommands [i, j] s = .next t ∧ runCommands [j, i] s = .next t' ∧
      ((∀ l, ¬ (commandWrites c.k i l = true ∧ commandWrites c.k j l = true)) →
        (∀ l, AgreeAt l t t') ∧
        (∀ l, commandWrites c.k i l = true → AgreeAt l u t) ∧
        (∀ l, commandWrites c.k j l = true → AgreeAt l v t)) ∧
      (∀ l, commandWrites c.k j l = true → AgreeAt l v t) ∧
      (∀ l, commandWrites c.k i l = true → AgreeAt l u t')

/-- In a list of commands of one pulse, each location holds at the end what the last command that writes
it gives, and what it held at the start if none writes it (R178, R179). -/
def Obligations.LastWriterDecides : Prop :=
  ∀ (is : List Instr) (s t : State) (c : DispatchCtx), s.disp = some c → runCommands is s = .next t →
    ∀ l,
      ((∀ i, i ∈ is → commandWrites c.k i l = false) → AgreeAt l s t) ∧
      (∀ pre i post u, is = pre ++ i :: post → commandWrites c.k i l = true →
        (∀ j, j ∈ post → commandWrites c.k j l = false) → exec i s = .next u → AgreeAt l u t)

/-- A toggle reads the flag as in S0: two toggles of one flag, and a set followed by a toggle, both leave
the inverse of S0's value (R232). -/
def Obligations.TogglesReadTheSnapshot : Prop :=
  ∀ (f : Flag) (s : State) (c : DispatchCtx), s.disp = some c →
    (∃ t, runCommands [.togf f, .togf f] s = .next t ∧ t.readFlag f = !c.s0.readFlag f) ∧
    (∃ t, runCommands [.setf f, .togf f] s = .next t ∧ t.readFlag f = !c.s0.readFlag f)

/-- LATCH.AB and LATCH.BA in one pulse swap the two groups as in S0, in either order (R236, R237). -/
def Obligations.LatchesSwapTheGroups : Prop :=
  ∀ (s : State) (c : DispatchCtx), s.disp = some c →
    (∃ t, runCommands [.latchAB, .latchBA] s = .next t ∧ t.cfa = c.s0.cfb ∧ t.cfb = c.s0.cfa) ∧
    (∃ t, runCommands [.latchBA, .latchAB] s = .next t ∧ t.cfa = c.s0.cfb ∧ t.cfb = c.s0.cfa)

/-- An MR and an MW of one pulse, in either order: RR takes the old byte and memory the new one (R205,
R206, R366). -/
def Obligations.ReadSeesTheOldByte : Prop :=
  ∀ (s : State) (c : DispatchCtx), s.disp = some c →
    ∀ is, is = [.mw, .mr] ∨ is = [.mr, .mw] →
      ∃ t, runCommands is s = .next t ∧ t.rr = c.s0.mem.read c.k.no ∧
        t.mem.read c.k.no = c.k.ni.extractLsb' 0 8

/-- An OT.NO in the pulse of an IT.NO, before or after it: the transfer takes the old NO knot, and the
knots of the state after the pulse see the new selection (R221, R360). -/
def Obligations.SelectionSeenNextPulse : Prop :=
  ∀ (src : NoSrc) (d : Dest) (m : Word) (s : State) (c : DispatchCtx), s.disp = some c →
    ∀ is, is = [.otNo src, .itNo d m] ∨ is = [.itNo d m, .otNo src] →
      ∃ t, runCommands is s = .next t ∧ t.nosel = src ∧
        (∀ j, j < d.width → (t.readDest d).getLsbD j = if m.getLsbD j then c.k.no.getLsbD j else (s.readDest d).getLsbD j) ∧
        (knotsOf t.toArch).no = noKnot Config.force1 Config.force2 { t.toRegs with nosel := src }

/-- Dispatch never fails (R183): it answers a next state, the dispatch over, and PMS, PI, STATUS, the
console inputs, the tables and the model's own fields as before. -/
def Obligations.DispatchAlwaysCompletes : Prop :=
  ∀ (chart : List Entry) (k : Knots) (s : State), ∃ t, dispatch chart k s = .next t ∧
    t.disp = none ∧ t.pms = s.pms ∧ t.pi = s.pi ∧ t.status = s.status ∧ SameConsole s t ∧ SameTables s t ∧
    t.calls = s.calls ∧ t.seq = s.seq

/-- An entry of another position, or whose guard is false at S0 and K, does nothing, wherever it stands
in the chart (R177); a guard is the conjunction of its literals (R176), so the absent guard is true
(R175). And what the signals of a literal are (R113, R112): by each id, the flag of S0 or the signal of K
it names, and no signal for a reserved id. -/
def Obligations.UnselectedEntriesDoNothing : Prop :=
  (∀ (pre post : List Entry) (e : Entry) (k : Knots) (s : State),
    e.pos ≠ s.pi ∨ guardHolds e.guard s.toArch k = false →
    dispatch (pre ++ e :: post) k s = dispatch (pre ++ post) k s) ∧
  (∀ (ls : List Literal) (a : Arch) (k : Knots),
    guardHolds (.all ls) a k = true ↔ ∀ l, l ∈ ls → (signalHolds a k l.sig = l.positive)) ∧
  (∀ (a : Arch) (k : Knots),
    (∀ r, r ∈ [(0x80, Signal.ch1a, k.ch1a), (0x81, .ch2a, k.ch2a), (0x82, .ch3a, k.ch3a), (0x83, .cpua, k.cpua),
        (0x84, .jcv, k.jcv),
        (0x10, .flag .powered, a.powered), (0x11, .flag .halted, a.halted), (0x12, .flag .loading, a.loading),
        (0x13, .flag .stallDis, a.stallDis), (0x14, .flag .stepMode, a.stepMode), (0x15, .flag .opCall, a.opCall),
        (0x16, .flag .intp, a.intp), (0x17, .flag .cnz, a.cnz),
        (0x18, .flag .cb1, a.cb1), (0x19, .flag .cb2, a.cb2), (0x1A, .flag .cb3, a.cb3),
        (0x1B, .flag .req1, a.req1), (0x1C, .flag .req2, a.req2), (0x1D, .flag .req3, a.req3)] →
      Signal.ofId r.1 = some r.2.1 ∧ signalHolds a k r.2.1 = r.2.2) ∧
    (∀ i : Fin 7, Signal.ofId (BitVec.ofNat 8 i.val) = some (.flag (.cfa i)) ∧
      signalHolds a k (.flag (.cfa i)) = a.cfa.getLsbD i.val) ∧
    (∀ i : Fin 7, Signal.ofId (BitVec.ofNat 8 (0x08 + i.val)) = some (.flag (.cfb i)) ∧
      signalHolds a k (.flag (.cfb i)) = a.cfb.getLsbD i.val) ∧
    (∀ i : Fin 8, Signal.ofId (BitVec.ofNat 8 (0x20 + i.val)) =
        (if i.val < Config.nRsb.val then some (.flag (.rsb i)) else none) ∧
      signalHolds a k (.flag (.rsb i)) = a.rsb.getLsbD i.val) ∧
    (∀ i : Fin 64, Signal.ofId (BitVec.ofNat 8 (0x40 + i.val)) =
        (if i.val < Config.nXFlags.val then some (.flag (.x i)) else none) ∧
      signalHolds a k (.flag (.x i)) = a.x.getLsbD i.val) ∧
    (∀ f : Flag, signalHolds a k (.flag f) = a.readFlag f)) ∧
  ∀ b : Byte, b = 0x07 ∨ b = 0x0F ∨ b = 0x1E ∨ b = 0x1F ∨ (0x28 ≤ b.toNat ∧ b.toNat ≤ 0x3F) ∨ 0x85 ≤ b.toNat →
    Signal.ofId b = none

/-- A chart that follows the latch convention at the current pulse, in either direction, leaves S0's source
group in the group the latch fills (R235 to R238). Direction and position are arguments, as the spec
leaves both open; that the latch stands unguarded and alone in writing its group is the model's form of
the convention (notes/assumptions/17.md). -/
def Obligations.LatchConvention : Prop :=
  ∀ (dir : LatchDir) (chart : List Entry) (k : Knots) (s t : State),
    LatchesAt dir s.pi chart → dispatch chart k s = .next t → t.readDest dir.target = s.readDest dir.source

/-! ## The pulse and the cycle (file 40) and the fatal errors (file 60) -/

/-- One step runs the decoded command: when the engine stands ready with no hook registered, the chart
of the current MS is one entry word that decodes to a command at the current pulse, and its guard holds,
the step is `exec` of that command on the state after the cycle's snapshot, with S0 and K taken there,
and then the end of the pulse (R141 to R147). -/
def Obligations.StepRunsTheDecodedCommand : Prop :=
  ∀ (s : State) (table : ChartTable) (w : EntryWord) (g : Guard) (i : Instr),
    ReadyAlone s table → s.charts.lookup s.ms = some [w] → decodeEntry s.guards w = .ok ⟨s.pi, g, i⟩ →
    guardHolds g s.beginCycle.toArch (knotsOf s.beginCycle.toArch) = true →
    ∃ t, exec i (s.beginCycle.beginDispatch (knotsOf s.beginCycle.toArch)) = .next t ∧
      step s = endPulse (t.setDisp none)

/-- The snapshot of step 1 (R141), with no hook registered: after a pulse at P0, PMS is the MS the pulse
began with; after any other pulse it is unchanged. -/
def Obligations.SnapshotAtCycleStart : Prop :=
  ∀ (s t : State) (table : ChartTable), ReadyAlone s table → step s = .next t →
    t.pms = if s.pi = 0 then s.ms else s.pms

/-- A pulse that answers a next state advanced PI by one, wrapping from 19 to 0 (R147), and left STATUS
Running; whatever the hooks do. -/
def Obligations.PulseIndexAdvances : Prop :=
  ∀ (h : HookFns) (s t : State), advancePulse h s = .next t →
    t.pi.val = (s.pi.val + 1) % 20 ∧ t.status = .running ∧ s.status = .running

/-- MS without a registered chart is ChartMissing at every pulse, never a no-op (R143, R300): the report
names MS and PI, and the state keeps the P0 snapshot (R306). -/
def Obligations.MissingChartIsFatal : Prop :=
  ∀ (s : State) (table : ChartTable), ReadyAlone s table → s.charts.lookup s.ms = none →
    step s = .fault (.chartMissing s.ms s.pi (s.beginCycle.failed .chartMissing))

/-- The stall check of P19 (R146, R301), with no hook registered: after the dispatch, MS equal to PMS is
a Stall that keeps every write of the dispatch, and MS different from PMS ends the cycle with PI = 0.
STALLDIS and HALTED do not matter (R47, R48). -/
def Obligations.StallCheckAtCycleEnd : Prop :=
  ∀ (s u : State) (table : ChartTable) (chart : List Entry), ReadyAlone s table → s.pi = 19 →
    table.lookup s.ms = some chart → dispatch chart (knotsOf s.toArch) s = .next u →
    (u.ms = u.pms → step s = .fault (.stall u.ms 19 (u.failed .stall))) ∧
    (u.ms ≠ u.pms → step s = .next (u.setPi 0))

/-- Stall is raised at P19 only, and only when MS equals the snapshot (R301); whatever the hooks do. -/
def Obligations.StallOnlyAtLastPulse : Prop :=
  ∀ (h : HookFns) (s t : State) (m : Byte) (p : Fin 20), advancePulse h s = .fault (.stall m p t) →
    s.pi = 19 ∧ p = 19 ∧ m = t.ms ∧ t.ms = t.pms

/-- Every fault of a pulse leaves PI at the failing pulse and STATUS = Failed with the fault's own kind,
and its report is the MS and PI of that state (R303, R304; the state a failure leaves is carried by the
fault, notes/assumptions/1.md). -/
def Obligations.FatalErrorReport : Prop :=
  ∀ (h : HookFns) (s : State) (f : Fault), advancePulse h s = .fault f →
    f.state.pi = s.pi ∧
    ((∃ t, f = .chartMissing t.ms t.pi t ∧ t.status = .failed .chartMissing) ∨
     (∃ t, f = .stall t.ms t.pi t ∧ t.status = .failed .stall) ∨
     (∃ e t, f = .peripheralFailure e t.ms t.pi t ∧ t.status = .failed (.peripheralFailure e)))

/-- The order of the checks of one pulse (R307): a failing on-clock hook is reported before a missing
chart, a missing chart before a failing on-pulse hook, and a failing on-pulse hook before any command or
the stall check. -/
def Obligations.OrderOfChecks : Prop :=
  ∀ (h : HookFns) (s t : State) (table : ChartTable), s.status = .running → register s.guards s.charts = .ok table →
    (∀ e, clockHooks h s.beginCycle = (t, some e) →
      advancePulse h s = .fault (.peripheralFailure e t.ms t.pi (t.failed (.peripheralFailure e)))) ∧
    (clockHooks h s.beginCycle = (t, none) → table.lookup t.ms = none →
      advancePulse h s = .fault (.chartMissing t.ms t.pi (t.failed .chartMissing))) ∧
    (∀ chart u e, clockHooks h s.beginCycle = (t, none) → table.lookup t.ms = some chart →
      runHooks h.onPulse t.hooks t = (u, some e) →
      advancePulse h s = .fault (.peripheralFailure e u.ms u.pi (u.failed (.peripheralFailure e))))

/-- Hooks run in registration order and the first error ends the round (R326): when the first on-clock
hook answers a new state and the second an error, the pulse at P0 is PeripheralFailure with that error
verbatim, the first hook's registers and memory in place (R302, R306, R322), and no later hook has run.
That the failing hook itself has written nothing is the model's (DEDUCED, notes/assumptions/6.md), and so
is that flags the configuration does not have stay 0 after a hook (DEDUCED, notes/assumptions/7.md). -/
def Obligations.FirstHookErrorEndsTheRound : Prop :=
  ∀ (h : HookFns) (s : State) (table : ChartTable) (a b : Nat) (rest : List Nat) (eff : HookEffect) (e : Nat),
    s.status = .running → register s.guards s.charts = .ok table → s.pi = 0 → s.hooks = a :: b :: rest →
    h.onClock a s.seq s.beginCycle.toArch = .ok eff →
    h.onClock b (s.seq + 1) (s.beginCycle.afterHook eff).toArch = .err e →
    ∃ t, advancePulse h s = .fault (.peripheralFailure e t.ms 0 t) ∧
      t.toRegs = eff.regs.keepExistingFlags ∧
      t.mem = s.mem.writeAll eff.memWrites ∧
      t.status = .failed (.peripheralFailure e) ∧ t.pi = 0 ∧ SameTables s t

/-- The knots are computed before the on-pulse hooks and S0 is taken after them, so a pulse's guards and
commands read the hooks' writes but not through a knot (R174, R186, R365). -/
def Obligations.HookKnotSkew : Prop :=
  ∀ (h : HookFns) (chart : List Entry) (s t : State), runHooks h.onPulse s.hooks s = (t, none) →
    ∃ u, runCommands (selected chart t.pi t.toArch (knotsOf s.toArch)) (t.setDisp (some ⟨t.toArch, knotsOf s.toArch⟩)) = .next u ∧
      pulseWithChart h chart s = endPulse (u.setDisp none)

/-- A failed engine runs no pulse and no cycle (R151, R305), and no setup (the model's reading of R151 and
R305, notes/assumptions/11.md). -/
def Obligations.FailedEngineIsRefused : Prop :=
  ∀ (h : HookFns) (s : State) (k : FailureKind), s.status = .failed k →
    advancePulse h s = .refused .engineFailed ∧ runCycle h s = .refused .engineFailed ∧
    hostSetup h s = .refused .engineFailed

/-- The failure kind is never cleared or replaced by a later step, the control actions among them
(R305), and a failed state raises no further error. -/
def Obligations.FailureIsSticky : Prop :=
  ∀ (s : State) (k : FailureKind), s.status = .failed k →
    (∀ t, step s = .next t → t.status = .failed k) ∧ (∀ f, step s ≠ .fault f)

/-- A configuration that does not pass the registration check has no run (R118, R182): every pulse, cycle
and setup is refused, with what the check found. An entry word that does not decode, in any chart, and a
reserved signal id in any guard definition make the check fail (R116, R117, 93 X12); tables pass exactly
when their keys are in order, every literal's signal exists and every entry decodes, and then the
registered table is the entry-by-entry decoding in declaration order (R173). That the check is made at
every pulse, how a refusal is named, and the order of the keys are the model's choice
(notes/assumptions/10.md). -/
def Obligations.IllFormedTablesHaveNoRun : Prop :=
  (∀ (h : HookFns) (s : State) (e : DecodeError), s.status = .running → register s.guards s.charts = .error e →
    advancePulse h s = .refused (.illFormedConfiguration e) ∧ runCycle h s = .refused (.illFormedConfiguration e) ∧
    hostSetup h s = .refused (.illFormedConfiguration e)) ∧
  (∀ (gs : GuardTable) (cs : RawCharts) (ms : Byte) (ws : List EntryWord) (w : EntryWord) (e : DecodeError),
    (ms, ws) ∈ cs → w ∈ ws → decodeEntry gs w = .error e → ∃ e', register gs cs = .error e') ∧
  (∀ (gs : GuardTable) (cs : RawCharts) (id : Byte) (ls : List RawLiteral) (l : RawLiteral),
    (id, .all ls) ∈ gs → l ∈ ls → Signal.ofId l.sigId = none → ∃ e', register gs cs = .error e') ∧
  ∀ (gs : GuardTable) (cs : RawCharts) (table : ChartTable),
    register gs cs = .ok table ↔
      (keysRising (gs.map Prod.fst) = true ∧ 0 ∉ gs.map Prod.fst ∧ keysRising (cs.map Prod.fst) = true) ∧
      (∀ id ls l, (id, GuardDef.all ls) ∈ gs → l ∈ ls → ∃ x, Signal.ofId l.sigId = some x) ∧
      List.Forall₂ (fun (c : Byte × List EntryWord) (t : Byte × List Entry) =>
        t.1 = c.1 ∧ List.Forall₂ (fun w n => decodeEntry gs w = .ok n) c.2 t.2) cs table

/-- CHARTS, GUARDS and HOOKS are fixed for the run (R57, R59): no step changes them. -/
def Obligations.TablesAreFixed : Prop :=
  ∀ s : State, (∀ t, step s = .next t → SameTables s t) ∧ (∀ f, step s = .fault f → SameTables s f.state)

/-- A successful `run_cycle` from PI = 0 runs the pulses P0 to P19 once each, in that order, and ends
with PI = 0 (R150); whatever the hooks do. -/
def Obligations.CycleVisitsEveryPulseOnce : Prop :=
  ∀ (h : HookFns) (s t : State), s.pi = 0 → runCycle h s = .next t →
    ∃ trace : Nat → State, trace 0 = s ∧ trace 20 = t ∧ t.pi = 0 ∧
      ∀ j, j < 20 → (trace j).pi.val = j ∧ advancePulse h (trace j) = .next (trace (j + 1))

/-- The progress obligation (R364), with no hook registered: a successful cycle from PI = 0 ends with MS
different from the MS it began with. -/
def Obligations.SuccessfulCycleMovesMs : Prop :=
  ∀ (h : HookFns) (s t : State), s.pi = 0 → s.hooks = [] → runCycle h s = .next t → t.ms ≠ s.ms

/-- A cycle from PI = 0 in a state whose charts never transfer into MS is a Stall at P19 (R301), with no
hook registered; the chart may be empty. -/
def Obligations.CycleWithoutMsWriteStalls : Prop :=
  ∀ (h : HookFns) (s : State) (table : ChartTable) (chart : List Entry), ReadyAlone s table → s.pi = 0 →
    table.lookup s.ms = some chart → NeverWritesMs table →
    ∃ t, runCycle h s = .fault (.stall s.ms 19 t) ∧ t.ms = s.ms ∧ t.pms = s.ms ∧ t.status = .failed .stall

/-! ## The invariant -/

/-- Every step keeps the invariant: memory stays in its canonical form (the model's own,
notes/assumptions/13.md), flags the configuration does not have read 0 (R46; notes/assumptions/7.md), and
no dispatch stays open between steps (R55; notes/assumptions/3.md); a fault's state has it too. -/
def Obligations.StepKeepsTheInvariant : Prop :=
  ∀ s : State, Inv s → (∀ t, step s = .next t → Inv t) ∧ (∀ f, step s = .fault f → Inv f.state)

/-- The state at creation has the invariant. -/
def Obligations.ResetHasTheInvariant : Prop := Inv State.reset

/-! ## Control actions, program load and console (file 46) -/

/-- The host acts between pulses, in the order of its calls, and with none waiting the step is one
`advance_pulse` (R153, R285; the list of calls is the model's, notes/assumptions/5.md). -/
def Obligations.HostCallsBetweenPulses : Prop :=
  ∀ s : State,
    (∀ c cs, s.calls = c :: cs → step s = hostCall Config.hookFns c (s.setCalls cs)) ∧
    (s.calls = [] → step s = advancePulse Config.hookFns s) ∧
    hostCall Config.hookFns .advancePulse s = advancePulse Config.hookFns s

/-- `clear` clears the flags of CLEAR_SET and HALTED and changes nothing else (R280). -/
def Obligations.ClearAction : Prop :=
  ∀ (h : HookFns) (s : State), ∃ t, hostCall h .clear s = .next t ∧
    (∀ f, t.readFlag f = if f ∈ Config.clearSet ∨ f = .halted then false else s.readFlag f) ∧
    (∀ d, d ≠ .cfa → d ≠ .cfb → t.readDest d = s.readDest d) ∧
    SameMem s t ∧ SameSelections s t ∧ SameOutside s t

/-- `load` sets LOADING and changes nothing else (R281). -/
def Obligations.LoadAction : Prop :=
  ∀ (h : HookFns) (s : State), WritesFlag (hostCall h .load s) s .loading true

/-- `start` sets MS to DISPLAY_STATE, which the spec takes as 0x80, clears START_FLAG, and changes nothing
else; PI is kept (R283). -/
def Obligations.StartAction : Prop :=
  ∀ (h : HookFns) (s : State), ∃ t, hostCall h .start s = .next t ∧
    t.ms = 0x80 ∧
    t.readFlag Config.startFlag = false ∧
    (∀ f, f ≠ Config.startFlag → t.readFlag f = s.readFlag f) ∧
    (∀ d, d ≠ .ms → d ≠ .cfa → d ≠ .cfb → t.readDest d = s.readDest d) ∧
    SameMem s t ∧ SameSelections s t ∧ SameOutside s t

/-- The program load copies min(n, 129) bytes of the buffer to the addresses from 0 up and changes no
other byte, register, flag or selection, however long the buffer is (R282). A byte past the end of the
buffer is open (the model's free value, notes/assumptions/8.md): nothing is said of it. -/
def Obligations.ProgramLoadCopiesTheBuffer : Prop :=
  ∀ (h : HookFns) (s : State) (buf : List Byte) (n : Nat), ∃ t, hostCall h (.programLoad buf n) s = .next t ∧
    (∀ (a : Word) (b : Byte), a.toNat < min n 129 → buf[a.toNat]? = some b → t.mem.read a = b) ∧
    (∀ a : Word, min n 129 ≤ a.toNat → t.mem.read a = s.mem.read a) ∧
    t.toRegs = s.toRegs ∧ t.pi = s.pi ∧ t.status = s.status ∧ SameTables s t

/-- The console's write sets CONSEL and CONSW and changes nothing else (R284). -/
def Obligations.ConsoleWrite : Prop :=
  ∀ (h : HookFns) (s : State) (sel : Fin 14) (sw : Word), ∃ t, hostCall h (.consoleWrite sel sw) s = .next t ∧
    t.consel = sel ∧ t.consw = sw ∧
    SameRegs s t ∧ SameFlags s t ∧ SameMem s t ∧ SameSelections s t ∧ SameTables s t ∧
    t.pms = s.pms ∧ t.pi = s.pi ∧ t.status = s.status ∧ t.disp = s.disp ∧ t.calls = s.calls ∧ t.seq = s.seq

/-- The setup round, once the tables have passed their check (R353), ends in a next state with STATUS
Running, or in PeripheralFailure when a hook errs (R321; the rounds are calls of the host,
notes/assumptions/11.md); the teardown round always ends in a next state and leaves STATUS and PI, so no
result already reported changes (R325). -/
def Obligations.SetupAndTeardown : Prop :=
  ∀ (h : HookFns) (s : State),
    (∀ table, s.status = .running → register s.guards s.charts = .ok table →
      (∀ t e, runHooks h.onSetup s.hooks s = (t, some e) →
        hostCall h .setup s = .fault (.peripheralFailure e t.ms s.pi (t.failed (.peripheralFailure e)))) ∧
      (∀ t, runHooks h.onSetup s.hooks s = (t, none) →
        hostCall h .setup s = .next t ∧ t.status = .running ∧ t.pi = s.pi)) ∧
    (∃ t, hostCall h .teardown s = .next t ∧ t.status = s.status ∧ t.pi = s.pi ∧ SameTables s t)
end

