-- ==== Sys2Proof/Laws/Memory.lean ====
section
/-!
SUPPORT. The laws of memory: a read after a write, and the canonical form under every memory operation.
-/

namespace Sys2Proof.Machine

@[simp] theorem Memory.read_nil (a : Word) : Memory.read [] a = 0 := rfl

/-- A read finds nothing at an address that no cell has. -/
theorem Memory.read_of_absent {m : Memory} {a : Word} (h : ∀ c, c ∈ m → c.1 ≠ a.toNat) : Memory.read m a = 0 := by
  induction m with
  | nil => rfl
  | cons c rest ih =>
    have hc := h c (by simp)
    simp only [Memory.read, hc, if_false]
    exact ih fun x hx => h x (by simp [hx])

/-- After `erase` no cell has the address. -/
theorem Memory.erase_absent (m : Memory) (k : Nat) : ∀ c, c ∈ Memory.erase m k → c.1 ≠ k := by
  intro c hc
  simpa [Memory.erase] using (List.mem_filter.mp hc).2

/-- `erase` leaves every other address as it reads. -/
theorem Memory.read_erase_other {m : Memory} {a : Word} {k : Nat} (h : a.toNat ≠ k) :
    Memory.read (Memory.erase m k) a = Memory.read m a := by
  induction m with
  | nil => rfl
  | cons c rest ih =>
    by_cases hc : c.1 = k
    · have : c.1 ≠ a.toNat := fun h' => h (h'.symm.trans hc)
      simpa [Memory.erase, hc, Memory.read, this, h.symm] using ih
    · by_cases ha : c.1 = a.toNat
      · simp [Memory.erase, Memory.read, ha, h]
      · simpa [Memory.erase, hc, Memory.read, ha] using ih

/-- `insert` puts its byte where no cell was. -/
theorem Memory.read_insert_same {m : Memory} {a : Word} {v : Byte} (h : ∀ c, c ∈ m → c.1 ≠ a.toNat) :
    Memory.read (Memory.insert a.toNat v m) a = v := by
  induction m with
  | nil => simp [Memory.insert, Memory.read]
  | cons c rest ih =>
    simp only [Memory.insert]
    split
    · simp [Memory.read]
    · have hc := h c (by simp)
      simp only [Memory.read, hc, if_false]
      exact ih fun x hx => h x (by simp [hx])

/-- `insert` leaves every other address as it reads. -/
theorem Memory.read_insert_other {m : Memory} {a : Word} {k : Nat} {v : Byte} (h : a.toNat ≠ k) :
    Memory.read (Memory.insert k v m) a = Memory.read m a := by
  induction m with
  | nil => simp [Memory.insert, Memory.read, h.symm]
  | cons c rest ih =>
    simp only [Memory.insert]
    split
    · simp [Memory.read, h.symm]
    · simp [Memory.read, ih]

/-- Everything a write does to what memory reads (R83). -/
theorem Memory.read_write (m : Memory) (a b : Word) (v : Byte) :
    Memory.read (Memory.write m a v) b = if b = a then v else Memory.read m b := by
  by_cases hb : b = a
  · subst hb
    by_cases hv : v = 0
    · simp only [Memory.write, hv, if_true]
      exact Memory.read_of_absent (Memory.erase_absent m b.toNat)
    · simp only [Memory.write, hv, if_false, if_true]
      exact Memory.read_insert_same (Memory.erase_absent m b.toNat)
  · have hn : b.toNat ≠ a.toNat := fun h => hb (BitVec.eq_of_toNat_eq h)
    by_cases hv : v = 0
    · rw [Memory.write, if_pos hv, if_neg hb, Memory.read_erase_other hn]
    · rw [Memory.write, if_neg hv, if_neg hb, Memory.read_insert_other hn, Memory.read_erase_other hn]

@[simp] theorem Memory.writeAll_nil (m : Memory) : Memory.writeAll m [] = m := rfl

/-- The canonical form as a proposition. -/
theorem Memory.wf_iff (m : Memory) :
    Memory.wf m = true ↔ m.Pairwise (fun c d => c.1 < d.1) ∧ ∀ c, c ∈ m → c.1 < 65536 ∧ c.2 ≠ 0 := by
  have rising : ∀ (n : Nat) (l : Memory),
      Memory.risingFrom n l = true ↔ (∀ c, c ∈ l → n < c.1) ∧ l.Pairwise (fun c d => c.1 < d.1) := by
    intro n l
    induction l generalizing n with
    | nil => simp [Memory.risingFrom]
    | cons c rest ih =>
      simp only [Memory.risingFrom, Bool.and_eq_true, decide_eq_true_eq, ih, List.mem_cons, forall_eq_or_imp,
        List.pairwise_cons]
      constructor
      · rintro ⟨h1, h2, h3⟩
        exact ⟨⟨h1, fun d hd => h1.trans (h2 d hd)⟩, h2, h3⟩
      · rintro ⟨⟨h1, _⟩, h2, h3⟩
        exact ⟨h1, h2, h3⟩
  cases m with
  | nil => simp [Memory.wf]
  | cons c rest => simp [Memory.wf, rising, List.pairwise_cons]

theorem Memory.wf_nil : Memory.wf [] = true := rfl

/-- `erase` keeps the canonical form. -/
theorem Memory.wf_erase {m : Memory} (k : Nat) (h : Memory.wf m = true) : Memory.wf (Memory.erase m k) = true := by
  rw [Memory.wf_iff] at h ⊢
  exact ⟨h.1.sublist List.filter_sublist, fun c hc => h.2 c (List.mem_filter.mp hc).1⟩

/-- The cells after `insert`. -/
theorem Memory.mem_insert {k : Nat} {v : Byte} {m : Memory} {c : Host.Cell} :
    c ∈ Memory.insert k v m ↔ c = (k, v) ∨ c ∈ m := by
  induction m with
  | nil => simp [Memory.insert]
  | cons d rest ih =>
    simp only [Memory.insert]
    split
    · simp
    · simp only [List.mem_cons, ih]; tauto

/-- `insert` keeps the canonical form when the address is free, inside the array, and the byte not 0. -/
theorem Memory.wf_insert {m : Memory} {k : Nat} {v : Byte} (h : Memory.wf m = true) (hk : k < 65536) (hv : v ≠ 0)
    (free : ∀ c, c ∈ m → c.1 ≠ k) : Memory.wf (Memory.insert k v m) = true := by
  rw [Memory.wf_iff] at h ⊢
  refine ⟨?_, fun c hc => ?_⟩
  · have hp := h.1
    clear h
    induction m with
    | nil => simp [Memory.insert]
    | cons d rest ih =>
      simp only [Memory.insert]
      rw [List.pairwise_cons] at hp
      split
      · rename_i hlt
        rw [List.pairwise_cons]
        refine ⟨fun c hc => ?_, List.pairwise_cons.mpr hp⟩
        rcases List.mem_cons.mp hc with rfl | hc
        · exact hlt
        · exact hlt.trans (hp.1 c hc)
      · rename_i hge
        rw [List.pairwise_cons]
        refine ⟨fun c hc => ?_, ih (fun c hc => free c (by simp [hc])) hp.2⟩
        rcases Memory.mem_insert.mp hc with rfl | hc
        · have := free d (by simp)
          simp only at this hge ⊢
          omega
        · exact hp.1 c hc
  · rcases Memory.mem_insert.mp hc with rfl | hc
    · exact ⟨hk, hv⟩
    · exact h.2 c hc

/-- A write keeps the canonical form. -/
theorem Memory.wf_write {m : Memory} (a : Word) (v : Byte) (h : Memory.wf m = true) :
    Memory.wf (Memory.write m a v) = true := by
  unfold Memory.write
  split
  · exact Memory.wf_erase _ h
  · rename_i hv
    exact Memory.wf_insert (Memory.wf_erase _ h) a.isLt hv (Memory.erase_absent m a.toNat)

/-- Many writes keep the canonical form. -/
theorem Memory.wf_writeAll {m : Memory} (ws : List (Word × Byte)) (h : Memory.wf m = true) :
    Memory.wf (Memory.writeAll m ws) = true := by
  induction ws generalizing m with
  | nil => exact h
  | cons w rest ih => exact ih (Memory.wf_write w.1 w.2 h)

/-- Reading a cell of a canonical memory. -/
theorem Memory.read_of_mem {m : Memory} {a : Word} {v : Byte} (h : Memory.wf m = true) (hm : (a.toNat, v) ∈ m) :
    Memory.read m a = v := by
  have hp := ((Memory.wf_iff m).mp h).1
  clear h
  induction m with
  | nil => cases hm
  | cons c rest ih =>
    rw [List.pairwise_cons] at hp
    rcases List.mem_cons.mp hm with rfl | hr
    · simp [Memory.read]
    · have hlt := hp.1 _ hr
      simp only at hlt
      have hc : c.1 ≠ a.toNat := by omega
      simp only [Memory.read, hc, if_false]
      exact ih hr hp.2

/-- A cell of a canonical memory is exactly a byte that does not read 0x00. -/
theorem Memory.mem_iff_read {m : Memory} (h : Memory.wf m = true) (c : Host.Cell) :
    c ∈ m ↔ c.1 < 65536 ∧ c.2 ≠ 0 ∧ Memory.read m (BitVec.ofNat 16 c.1) = c.2 := by
  have hw := ((Memory.wf_iff m).mp h).2
  constructor
  · intro hc
    obtain ⟨h1, h2⟩ := hw c hc
    refine ⟨h1, h2, Memory.read_of_mem h ?_⟩
    rw [BitVec.toNat_ofNat, Nat.mod_eq_of_lt h1]
    exact hc
  · rintro ⟨h1, h2, h3⟩
    by_contra hn
    obtain ⟨d, hd, hk⟩ : ∃ d, d ∈ m ∧ d.1 = (BitVec.ofNat 16 c.1).toNat := by
      by_contra hno
      refine h2 (h3.symm.trans (Memory.read_of_absent fun d hd hk => hno ⟨d, hd, hk⟩))
    have hv : Memory.read m (BitVec.ofNat 16 c.1) = d.2 := Memory.read_of_mem h (by rw [← hk]; exact hd)
    have hk' : d.1 = c.1 := by rw [hk, BitVec.toNat_ofNat, Nat.mod_eq_of_lt h1]
    exact hn (by rw [← Prod.ext hk' (hv.symm.trans h3)]; exact hd)

/-- Canonical memories that read alike are equal, so that equal machines are equal data. -/
theorem Memory.ext_of_read {m n : Memory} (hm : Memory.wf m = true) (hn : Memory.wf n = true)
    (h : ∀ a : Word, Memory.read m a = Memory.read n a) : m = n := by
  have hmem : ∀ c, c ∈ m ↔ c ∈ n := fun c => by
    rw [Memory.mem_iff_read hm, Memory.mem_iff_read hn, h]
  have pm := ((Memory.wf_iff m).mp hm).1
  have pn := ((Memory.wf_iff n).mp hn).1
  have irr : ∀ c d : Host.Cell, c ∈ m → d ∈ n → c.1 < d.1 → d.1 < c.1 → c = d := fun c d _ _ h1 h2 => by omega
  have dm : m.Nodup := pm.imp fun {a b} hlt heq => by rw [heq] at hlt; exact Nat.lt_irrefl _ hlt
  have dn : n.Nodup := pn.imp fun {a b} hlt heq => by rw [heq] at hlt; exact Nat.lt_irrefl _ hlt
  exact List.Perm.eq_of_pairwise irr pm pn ((List.perm_ext_iff_of_nodup dm dn).mpr hmem)

end Sys2Proof.Machine
end

