-- ==== Sys2Proof/Laws/State.lean ====
section
/-!
SUPPORT. One lemma per part of the state per named update, so that no proof unfolds a record update.
-/

namespace Sys2Proof.Machine

@[simp] theorem State.setRegs_toRegs (r : Regs) (s : State) : (s.setRegs r).toRegs = r := rfl
@[simp] theorem State.setRegs_mem (r : Regs) (s : State) : (s.setRegs r).mem = s.mem := rfl
@[simp] theorem State.setRegs_pi (r : Regs) (s : State) : (s.setRegs r).pi = s.pi := rfl
@[simp] theorem State.setRegs_status (r : Regs) (s : State) : (s.setRegs r).status = s.status := rfl
@[simp] theorem State.setRegs_disp (r : Regs) (s : State) : (s.setRegs r).disp = s.disp := rfl
@[simp] theorem State.setRegs_charts (r : Regs) (s : State) : (s.setRegs r).charts = s.charts := rfl
@[simp] theorem State.setRegs_guards (r : Regs) (s : State) : (s.setRegs r).guards = s.guards := rfl
@[simp] theorem State.setRegs_hooks (r : Regs) (s : State) : (s.setRegs r).hooks = s.hooks := rfl
@[simp] theorem State.setRegs_calls (r : Regs) (s : State) : (s.setRegs r).calls = s.calls := rfl
@[simp] theorem State.setRegs_seq (r : Regs) (s : State) : (s.setRegs r).seq = s.seq := rfl

@[simp] theorem State.setMem_toRegs (m : Memory) (s : State) : (s.setMem m).toRegs = s.toRegs := rfl
@[simp] theorem State.setMem_mem (m : Memory) (s : State) : (s.setMem m).mem = m := rfl
@[simp] theorem State.setMem_pi (m : Memory) (s : State) : (s.setMem m).pi = s.pi := rfl
@[simp] theorem State.setMem_status (m : Memory) (s : State) : (s.setMem m).status = s.status := rfl
@[simp] theorem State.setMem_disp (m : Memory) (s : State) : (s.setMem m).disp = s.disp := rfl
@[simp] theorem State.setMem_charts (m : Memory) (s : State) : (s.setMem m).charts = s.charts := rfl
@[simp] theorem State.setMem_guards (m : Memory) (s : State) : (s.setMem m).guards = s.guards := rfl
@[simp] theorem State.setMem_hooks (m : Memory) (s : State) : (s.setMem m).hooks = s.hooks := rfl
@[simp] theorem State.setMem_calls (m : Memory) (s : State) : (s.setMem m).calls = s.calls := rfl
@[simp] theorem State.setMem_seq (m : Memory) (s : State) : (s.setMem m).seq = s.seq := rfl

@[simp] theorem State.setPi_toRegs (p : Fin 20) (s : State) : (s.setPi p).toRegs = s.toRegs := rfl
@[simp] theorem State.setPi_mem (p : Fin 20) (s : State) : (s.setPi p).mem = s.mem := rfl
@[simp] theorem State.setPi_pi (p : Fin 20) (s : State) : (s.setPi p).pi = p := rfl
@[simp] theorem State.setPi_status (p : Fin 20) (s : State) : (s.setPi p).status = s.status := rfl
@[simp] theorem State.setPi_disp (p : Fin 20) (s : State) : (s.setPi p).disp = s.disp := rfl
@[simp] theorem State.setPi_charts (p : Fin 20) (s : State) : (s.setPi p).charts = s.charts := rfl
@[simp] theorem State.setPi_guards (p : Fin 20) (s : State) : (s.setPi p).guards = s.guards := rfl
@[simp] theorem State.setPi_hooks (p : Fin 20) (s : State) : (s.setPi p).hooks = s.hooks := rfl
@[simp] theorem State.setPi_calls (p : Fin 20) (s : State) : (s.setPi p).calls = s.calls := rfl
@[simp] theorem State.setPi_seq (p : Fin 20) (s : State) : (s.setPi p).seq = s.seq := rfl

@[simp] theorem State.setStatus_toRegs (x : Status) (s : State) : (s.setStatus x).toRegs = s.toRegs := rfl
@[simp] theorem State.setStatus_mem (x : Status) (s : State) : (s.setStatus x).mem = s.mem := rfl
@[simp] theorem State.setStatus_pi (x : Status) (s : State) : (s.setStatus x).pi = s.pi := rfl
@[simp] theorem State.setStatus_status (x : Status) (s : State) : (s.setStatus x).status = x := rfl
@[simp] theorem State.setStatus_disp (x : Status) (s : State) : (s.setStatus x).disp = s.disp := rfl
@[simp] theorem State.setStatus_charts (x : Status) (s : State) : (s.setStatus x).charts = s.charts := rfl
@[simp] theorem State.setStatus_guards (x : Status) (s : State) : (s.setStatus x).guards = s.guards := rfl
@[simp] theorem State.setStatus_hooks (x : Status) (s : State) : (s.setStatus x).hooks = s.hooks := rfl
@[simp] theorem State.setStatus_calls (x : Status) (s : State) : (s.setStatus x).calls = s.calls := rfl
@[simp] theorem State.setStatus_seq (x : Status) (s : State) : (s.setStatus x).seq = s.seq := rfl

@[simp] theorem State.setDisp_toRegs (d : Option DispatchCtx) (s : State) : (s.setDisp d).toRegs = s.toRegs := rfl
@[simp] theorem State.setDisp_mem (d : Option DispatchCtx) (s : State) : (s.setDisp d).mem = s.mem := rfl
@[simp] theorem State.setDisp_pi (d : Option DispatchCtx) (s : State) : (s.setDisp d).pi = s.pi := rfl
@[simp] theorem State.setDisp_status (d : Option DispatchCtx) (s : State) : (s.setDisp d).status = s.status := rfl
@[simp] theorem State.setDisp_disp (d : Option DispatchCtx) (s : State) : (s.setDisp d).disp = d := rfl
@[simp] theorem State.setDisp_charts (d : Option DispatchCtx) (s : State) : (s.setDisp d).charts = s.charts := rfl
@[simp] theorem State.setDisp_guards (d : Option DispatchCtx) (s : State) : (s.setDisp d).guards = s.guards := rfl
@[simp] theorem State.setDisp_hooks (d : Option DispatchCtx) (s : State) : (s.setDisp d).hooks = s.hooks := rfl
@[simp] theorem State.setDisp_calls (d : Option DispatchCtx) (s : State) : (s.setDisp d).calls = s.calls := rfl
@[simp] theorem State.setDisp_seq (d : Option DispatchCtx) (s : State) : (s.setDisp d).seq = s.seq := rfl
@[simp] theorem State.setDisp_toArch (d : Option DispatchCtx) (s : State) : (s.setDisp d).toArch = s.toArch := rfl

@[simp] theorem State.setCalls_toRegs (c : List HostCall) (s : State) : (s.setCalls c).toRegs = s.toRegs := rfl
@[simp] theorem State.setCalls_mem (c : List HostCall) (s : State) : (s.setCalls c).mem = s.mem := rfl
@[simp] theorem State.setCalls_pi (c : List HostCall) (s : State) : (s.setCalls c).pi = s.pi := rfl
@[simp] theorem State.setCalls_status (c : List HostCall) (s : State) : (s.setCalls c).status = s.status := rfl
@[simp] theorem State.setCalls_disp (c : List HostCall) (s : State) : (s.setCalls c).disp = s.disp := rfl
@[simp] theorem State.setCalls_charts (c : List HostCall) (s : State) : (s.setCalls c).charts = s.charts := rfl
@[simp] theorem State.setCalls_guards (c : List HostCall) (s : State) : (s.setCalls c).guards = s.guards := rfl
@[simp] theorem State.setCalls_hooks (c : List HostCall) (s : State) : (s.setCalls c).hooks = s.hooks := rfl
@[simp] theorem State.setCalls_calls (c : List HostCall) (s : State) : (s.setCalls c).calls = c := rfl
@[simp] theorem State.setCalls_seq (c : List HostCall) (s : State) : (s.setCalls c).seq = s.seq := rfl
@[simp] theorem State.setCalls_toArch (c : List HostCall) (s : State) : (s.setCalls c).toArch = s.toArch := rfl

@[simp] theorem State.tick_toRegs (s : State) : (s.tick).toRegs = s.toRegs := rfl
@[simp] theorem State.tick_mem (s : State) : (s.tick).mem = s.mem := rfl
@[simp] theorem State.tick_pi (s : State) : (s.tick).pi = s.pi := rfl
@[simp] theorem State.tick_status (s : State) : (s.tick).status = s.status := rfl
@[simp] theorem State.tick_disp (s : State) : (s.tick).disp = s.disp := rfl
@[simp] theorem State.tick_charts (s : State) : (s.tick).charts = s.charts := rfl
@[simp] theorem State.tick_guards (s : State) : (s.tick).guards = s.guards := rfl
@[simp] theorem State.tick_hooks (s : State) : (s.tick).hooks = s.hooks := rfl
@[simp] theorem State.tick_calls (s : State) : (s.tick).calls = s.calls := rfl
@[simp] theorem State.tick_seq (s : State) : (s.tick).seq = s.seq + 1 := rfl
@[simp] theorem State.tick_toArch (s : State) : (s.tick).toArch = s.toArch := rfl

/-- What a failure leaves (R304, R306): STATUS, and the dispatch over. -/
@[simp] theorem State.failed_toRegs (k : FailureKind) (s : State) : (s.failed k).toRegs = s.toRegs := rfl
@[simp] theorem State.failed_mem (k : FailureKind) (s : State) : (s.failed k).mem = s.mem := rfl
@[simp] theorem State.failed_pi (k : FailureKind) (s : State) : (s.failed k).pi = s.pi := rfl
@[simp] theorem State.failed_status (k : FailureKind) (s : State) : (s.failed k).status = .failed k := rfl
@[simp] theorem State.failed_disp (k : FailureKind) (s : State) : (s.failed k).disp = none := rfl
@[simp] theorem State.failed_charts (k : FailureKind) (s : State) : (s.failed k).charts = s.charts := rfl
@[simp] theorem State.failed_guards (k : FailureKind) (s : State) : (s.failed k).guards = s.guards := rfl
@[simp] theorem State.failed_hooks (k : FailureKind) (s : State) : (s.failed k).hooks = s.hooks := rfl
@[simp] theorem State.failed_calls (k : FailureKind) (s : State) : (s.failed k).calls = s.calls := rfl
@[simp] theorem State.failed_seq (k : FailureKind) (s : State) : (s.failed k).seq = s.seq := rfl

/-- A fatal error is a fault that carries the failed state, and nothing else (R303, R304). -/
theorem raiseFatal_inv {k : FailureKind} {s : State} {o : Host.Outcome State Fault Refusal}
    (h : raiseFatal k s = o) : ∃ f, o = .fault f ∧ f.state = s.failed k := by
  cases k <;> exact ⟨_, h.symm, rfl⟩

/-- A fatal error never answers a next state. -/
theorem raiseFatal_ne_next (k : FailureKind) (s t : State) : raiseFatal k s ≠ .next t := by
  cases k <;> simp [raiseFatal]

end Sys2Proof.Machine
end

