-- ==== Sys2Proof/Laws/Regs.lean ====
section
/-!
SUPPORT. What a masked write, a transfer into a destination and a write of a flag do, said once.
-/

namespace Sys2Proof.Machine

/-- The bits of a masked write (R179). -/
theorem writeBits_getLsbD {w : Nat} (d m v : BitVec w) (j : Nat) :
    (writeBits d m v).getLsbD j = if m.getLsbD j then v.getLsbD j else d.getLsbD j := by
  by_cases hj : j < w
  · by_cases hm : m.getLsbD j = true <;> simp [writeBits, hj, hm, -BitVec.getLsbD_eq_getElem]
  · simp [BitVec.getLsbD_of_ge _ _ (Nat.le_of_not_lt hj)]

/-- The bits of a one-bit write. -/
theorem writeBit_getLsbD {w : Nat} (d : BitVec w) (i j : Nat) (b : Bool) (hj : j < w) :
    (writeBit d i b).getLsbD j = if i = j then b else d.getLsbD j := by
  unfold writeBit
  rw [writeBits_getLsbD, BitVec.getLsbD_twoPow]
  by_cases h : i = j
  · subst h
    cases b <;> simp [hj]
  · simp [h]

/-- The bits of the low-bit mask. -/
theorem lowBits_getLsbD {w n j : Nat} (hj : j < w) : (lowBits w n).getLsbD j = decide (j < n) := by
  simp [lowBits, BitVec.getLsbD_ofNat, hj, Nat.testBit_two_pow_sub_one, -BitVec.getLsbD_eq_getElem]

/-- Everything a transfer does to the destinations (R200). -/
theorem Regs.readDest_writeDest (r : Regs) (d d' : Dest) (m v : Word) (j : Nat) :
    ((r.writeDest d m v).readDest d').getLsbD j =
      if d' = d ∧ j < d.width ∧ m.getLsbD j then v.getLsbD j else (r.readDest d').getLsbD j := by
  by_cases h : d' = d
  · subst h
    cases d' <;>
      simp [Regs.writeDest, Regs.readDest, writeBits_getLsbD, Dest.width] <;>
      (try split) <;> (try split) <;> simp_all <;> omega
  · cases d <;> cases d' <;> first | exact absurd rfl h | simp [Regs.writeDest, Regs.readDest]

/-- A transfer writes no other destination. -/
theorem Regs.readDest_writeDest_other (r : Regs) {d d' : Dest} (m v : Word) (h : d' ≠ d) :
    (r.writeDest d m v).readDest d' = r.readDest d' := by
  cases d <;> cases d' <;> first | exact absurd rfl h | rfl

/-- Everything a write of a flag does to the flags (R230, R233). -/
theorem Regs.readFlag_writeFlag (r : Regs) (f g : Flag) (b : Bool) :
    (r.writeFlag f b).readFlag g = if g = f then b else r.readFlag g := by
  cases f <;> cases g <;>
    simp [Regs.writeFlag, Regs.readFlag, writeBit_getLsbD, Fin.ext_iff, eq_comm, -BitVec.getLsbD_eq_getElem]

/-- The parts of `Regs` no transfer reaches. -/
theorem Regs.writeDest_rest (r : Regs) (d : Dest) (m v : Word) :
    (r.writeDest d m v).pms = r.pms ∧ (r.writeDest d m v).nosel = r.nosel ∧ (r.writeDest d m v).nisel = r.nisel ∧
    (r.writeDest d m v).consel = r.consel ∧ (r.writeDest d m v).consw = r.consw ∧
    (r.writeDest d m v).rsb = r.rsb ∧ (r.writeDest d m v).x = r.x := by
  cases d <;> exact ⟨rfl, rfl, rfl, rfl, rfl, rfl, rfl⟩

/-- A transfer changes no flag outside the condition groups. -/
theorem Regs.writeDest_flag (r : Regs) (d : Dest) (m v : Word) (f : Flag)
    (hf : ∀ i, f ≠ .cfa i) (hg : ∀ i, f ≠ .cfb i) : (r.writeDest d m v).readFlag f = r.readFlag f := by
  cases f with
  | cfa i => exact absurd rfl (hf i)
  | cfb i => exact absurd rfl (hg i)
  | _ => cases d <;> rfl

/-- The parts of `Regs` no write of a flag reaches. -/
theorem Regs.writeFlag_rest (r : Regs) (f : Flag) (b : Bool) :
    (r.writeFlag f b).pms = r.pms ∧ (r.writeFlag f b).nosel = r.nosel ∧ (r.writeFlag f b).nisel = r.nisel ∧
    (r.writeFlag f b).consel = r.consel ∧ (r.writeFlag f b).consw = r.consw ∧ (r.writeFlag f b).ms = r.ms := by
  cases f <;> exact ⟨rfl, rfl, rfl, rfl, rfl, rfl⟩

/-- A write of a flag changes no register but the condition groups. -/
theorem Regs.writeFlag_dest (r : Regs) (f : Flag) (b : Bool) (d : Dest) (ha : d ≠ .cfa) (hb : d ≠ .cfb) :
    (r.writeFlag f b).readDest d = r.readDest d := by
  cases d with
  | cfa => exact absurd rfl ha
  | cfb => exact absurd rfl hb
  | _ => cases f <;> rfl

/-- A flag the configuration does not have reads 0 after a hook (R46). -/
theorem Regs.keepExistingFlags_absent (r : Regs) :
    (∀ i : Fin 8, Config.nRsb.val ≤ i.val → r.keepExistingFlags.readFlag (.rsb i) = false) ∧
    (∀ i : Fin 64, Config.nXFlags.val ≤ i.val → r.keepExistingFlags.readFlag (.x i) = false) := by
  constructor <;> intro i hi <;> 
    simp [Regs.keepExistingFlags, Regs.readFlag, lowBits_getLsbD, hi, -BitVec.getLsbD_eq_getElem]

/-- A run of `clearFlags` leaves every flag as it was or 0. -/
theorem Regs.readFlag_clearFlags (fs : List Flag) (r : Regs) (g : Flag) :
    (Regs.clearFlags fs r).readFlag g = if g ∈ fs then false else r.readFlag g := by
  induction fs generalizing r with
  | nil => simp [Regs.clearFlags]
  | cons f rest ih =>
    simp only [Regs.clearFlags, ih, Regs.readFlag_writeFlag, List.mem_cons]
    by_cases h : g ∈ rest <;> by_cases h2 : g = f <;> simp [h, h2]

end Sys2Proof.Machine
end

