-- ==== Sys2Proof/Laws/Pulse.lean ====
section
/-!
SUPPORT. What the shared operations of a pulse do, said once: transfers and flag writes on the state,
hook rounds, the end of a pulse, and how an outcome of `step` splits.
-/

namespace Sys2Proof.Machine

@[simp] theorem State.transfer_toRegs (d : Dest) (m v : Word) (s : State) :
    (s.transfer d m v).toRegs = s.toRegs.writeDest d m v := rfl
@[simp] theorem State.transfer_mem (d : Dest) (m v : Word) (s : State) : (s.transfer d m v).mem = s.mem := rfl
@[simp] theorem State.transfer_pi (d : Dest) (m v : Word) (s : State) : (s.transfer d m v).pi = s.pi := rfl
@[simp] theorem State.transfer_status (d : Dest) (m v : Word) (s : State) : (s.transfer d m v).status = s.status := rfl
@[simp] theorem State.transfer_disp (d : Dest) (m v : Word) (s : State) : (s.transfer d m v).disp = s.disp := rfl
@[simp] theorem State.putFlag_toRegs (f : Flag) (b : Bool) (s : State) :
    (s.putFlag f b).toRegs = s.toRegs.writeFlag f b := rfl
@[simp] theorem State.putFlag_mem (f : Flag) (b : Bool) (s : State) : (s.putFlag f b).mem = s.mem := rfl
@[simp] theorem State.putFlag_pi (f : Flag) (b : Bool) (s : State) : (s.putFlag f b).pi = s.pi := rfl
@[simp] theorem State.putFlag_status (f : Flag) (b : Bool) (s : State) : (s.putFlag f b).status = s.status := rfl
@[simp] theorem State.putFlag_disp (f : Flag) (b : Bool) (s : State) : (s.putFlag f b).disp = s.disp := rfl

/-- During a dispatch a command reads S0 and K (R174). -/
theorem State.source_of_disp {s : State} {c : DispatchCtx} (h : s.disp = some c) : s.source = c.s0 := by
  simp [State.source, h]
theorem State.bus_of_disp {s : State} {c : DispatchCtx} (h : s.disp = some c) : s.bus = c.k := by
  simp [State.bus, h]
/-- Outside a dispatch it reads the state itself. -/
theorem State.source_of_none {s : State} (h : s.disp = none) : s.source = s.toArch := by
  simp [State.source, h]
theorem State.bus_of_none {s : State} (h : s.disp = none) : s.bus = knotsOf s.toArch := by
  simp [State.bus, h]

@[simp] theorem State.afterHook_toRegs (e : HookEffect) (s : State) :
    (s.afterHook e).toRegs = e.regs.keepExistingFlags := rfl
@[simp] theorem State.afterHook_mem (e : HookEffect) (s : State) :
    (s.afterHook e).mem = s.mem.writeAll e.memWrites := rfl

/-- What no hook can change (R322): PI, STATUS, the tables and the model's own fields but the call count. -/
structure HooksKeep (s t : State) : Prop where
  pi : t.pi = s.pi
  status : t.status = s.status
  disp : t.disp = s.disp
  charts : t.charts = s.charts
  guards : t.guards = s.guards
  hooks : t.hooks = s.hooks
  calls : t.calls = s.calls

theorem HooksKeep.refl (s : State) : HooksKeep s s := ⟨rfl, rfl, rfl, rfl, rfl, rfl, rfl⟩

theorem HooksKeep.trans {s t u : State} (a : HooksKeep s t) (b : HooksKeep t u) : HooksKeep s u :=
  ⟨b.pi.trans a.pi, b.status.trans a.status, b.disp.trans a.disp, b.charts.trans a.charts,
   b.guards.trans a.guards, b.hooks.trans a.hooks, b.calls.trans a.calls⟩

/-- A hook round changes nothing outside a hook's liberty, whether or not it ends in an error. -/
theorem runHooks_keep (call : Nat → Nat → Arch → HookAnswer) (hs : List Nat) (s : State) :
    HooksKeep s (runHooks call hs s).1 := by
  induction hs generalizing s with
  | nil => exact HooksKeep.refl s
  | cons h rest ih =>
    unfold runHooks
    split
    · exact HooksKeep.trans (t := s.afterHook _) ⟨rfl, rfl, rfl, rfl, rfl, rfl, rfl⟩ (ih _)
    · exact ⟨rfl, rfl, rfl, rfl, rfl, rfl, rfl⟩

/-- A property of the registers and memory that every hook effect establishes or keeps holds after a
round that began with it. -/
theorem runHooks_induct {P : Regs → Memory → Prop} (call : Nat → Nat → Arch → HookAnswer)
    (step : ∀ r m (e : HookEffect), P r m → P e.regs.keepExistingFlags (m.writeAll e.memWrites))
    (hs : List Nat) (s : State) (h0 : P s.toRegs s.mem) :
    P (runHooks call hs s).1.toRegs (runHooks call hs s).1.mem := by
  induction hs generalizing s with
  | nil => exact h0
  | cons h rest ih =>
    unfold runHooks
    split
    · exact ih _ (step _ _ _ h0)
    · exact h0

@[simp] theorem runHooks_nil (call : Nat → Nat → Arch → HookAnswer) (s : State) : runHooks call [] s = (s, none) := rfl

/-- With no hook registered the on-clock round does nothing. -/
theorem clockHooks_of_none {h : HookFns} {s : State} (hs : s.hooks = []) : clockHooks h s = (s, none) := by
  unfold clockHooks
  split <;> simp [hs]

/-- The advance of PI (R147). -/
theorem nextPulse_val (p : Fin 20) : (nextPulse p).val = (p.val + 1) % 20 := by
  revert p; decide

/-- How a pulse ends in a next state (R146, R147). -/
theorem endPulse_next {s t : State} (h : endPulse s = .next t) :
    ¬ (s.pi = 19 ∧ s.ms = s.pms) ∧ t = s.setPi (nextPulse s.pi) := by
  unfold endPulse at h
  split at h
  · exact absurd h (raiseFatal_ne_next _ _ _)
  · rename_i hn
    exact ⟨hn, by cases h; rfl⟩

/-- How a pulse ends in a fault (R146, R301). -/
theorem endPulse_fault {s : State} {f : Fault} (h : endPulse s = .fault f) :
    s.pi = 19 ∧ s.ms = s.pms ∧ f = .stall s.ms s.pi (s.failed .stall) := by
  unfold endPulse at h
  split at h
  · rename_i hc
    exact ⟨hc.1, hc.2, by cases h; rfl⟩
  · cases h

/-- The state a cycle's first pulse begins with. -/
theorem State.beginCycle_cases (s : State) :
    (s.pi = 0 ∧ s.beginCycle = s.setRegs { s.toRegs with pms := s.ms }) ∨ (s.pi ≠ 0 ∧ s.beginCycle = s) := by
  by_cases h : s.pi = 0 <;> simp [State.beginCycle, h]

theorem runCommands_cons (i : Instr) (is : List Instr) (s : State) :
    runCommands (i :: is) s =
      match exec i s with
      | .next t => runCommands is t
      | .fault f => .fault f
      | .refused r => .refused r := rfl

end Sys2Proof.Machine
end

