-- ==== Sys2Proof/Laws/Dispatch.lean ====
section
/-!
SUPPORT. What a transfer, a flag write, a list of commands, a dispatch, the registration and one
`advance_pulse` do, said once, in the terms of Sys2Proof/Safety.lean.
-/

namespace Sys2Proof.Machine

/-- Agreement at a location is an equivalence. -/
theorem AgreeAt.refl {l : Loc} (s : State) : AgreeAt l s s := by cases l <;> exact rfl
theorem AgreeAt.symm {l : Loc} {s t : State} (h : AgreeAt l s t) : AgreeAt l t s := by cases l <;> exact Eq.symm h
theorem AgreeAt.trans {l : Loc} {s t u : State} (h : AgreeAt l s t) (h' : AgreeAt l t u) : AgreeAt l s u := by
  cases l <;> exact Eq.trans h h'

/-- A transfer leaves every location it does not write (R200). -/
theorem transfer_unwritten (d : Dest) (m v : Word) (s : State) (l : Loc)
    (h : transferWrites d m l = false) :
    AgreeAt l s (s.transfer d m v) := by
  cases l with
  | bit d' j =>
    simp only [AgreeAt, State.transfer_toRegs, Regs.readDest_writeDest]
    simp only [transferWrites, Bool.and_eq_false_iff, beq_eq_false_iff_ne, decide_eq_false_iff_not] at h
    split
    · rename_i hh; rcases h with (h|h)|h
      · exact absurd hh.1.symm h
      · rw [h] at hh; exact absurd hh.2.2 (by decide)
      · exact absurd hh.2.1 h
    · rfl
  | flag f =>
    simp only [AgreeAt]
    cases f with
    | cfa i =>
      cases d <;> try rfl
      simp only [transferWrites] at h
      have h : m.getLsbD i.val = false := by simpa using h
      show s.cfa.getLsbD i.val = (writeBits s.cfa (m.setWidth 7) (v.setWidth 7)).getLsbD i.val
      rw [writeBits_getLsbD]; simp [h, BitVec.getLsbD_setWidth, -BitVec.getLsbD_eq_getElem]
    | cfb i =>
      cases d <;> try rfl
      simp only [transferWrites] at h
      have h : m.getLsbD i.val = false := by simpa using h
      show s.cfb.getLsbD i.val = (writeBits s.cfb (m.setWidth 7) (v.setWidth 7)).getLsbD i.val
      rw [writeBits_getLsbD]; simp [h, BitVec.getLsbD_setWidth, -BitVec.getLsbD_eq_getElem]
    | _ => cases d <;> rfl
  | nosel => exact (Regs.writeDest_rest s.toRegs d m v).2.1.symm
  | nisel q => simp only [AgreeAt]; rw [State.transfer_toRegs, (Regs.writeDest_rest s.toRegs d m v).2.2.1]
  | byte a => rfl

/-- What a transfer writes does not depend on the state it writes to (R178, R200). -/
theorem transfer_written (d : Dest) (m v : Word) (s s' : State) (l : Loc)
    (h : transferWrites d m l = true) :
    AgreeAt l (s.transfer d m v) (s'.transfer d m v) := by
  cases l with
  | bit d' j =>
    simp only [AgreeAt, State.transfer_toRegs, Regs.readDest_writeDest]
    simp only [transferWrites, Bool.and_eq_true, beq_iff_eq, decide_eq_true_eq] at h
    obtain ⟨⟨rfl, h2⟩, h3⟩ := h
    simp [h2, h3]
  | flag f =>
    simp only [AgreeAt]
    cases f with
    | cfa i =>
      simp only [transferWrites, Bool.and_eq_true, beq_iff_eq] at h
      obtain ⟨rfl, h2⟩ := h
      show (writeBits s.cfa (m.setWidth 7) (v.setWidth 7)).getLsbD i.val = (writeBits s'.cfa (m.setWidth 7) (v.setWidth 7)).getLsbD i.val
      rw [writeBits_getLsbD, writeBits_getLsbD]; simp [h2, BitVec.getLsbD_setWidth, -BitVec.getLsbD_eq_getElem]
    | cfb i =>
      simp only [transferWrites, Bool.and_eq_true, beq_iff_eq] at h
      obtain ⟨rfl, h2⟩ := h
      show (writeBits s.cfb (m.setWidth 7) (v.setWidth 7)).getLsbD i.val = (writeBits s'.cfb (m.setWidth 7) (v.setWidth 7)).getLsbD i.val
      rw [writeBits_getLsbD, writeBits_getLsbD]; simp [h2, BitVec.getLsbD_setWidth, -BitVec.getLsbD_eq_getElem]
    | _ => simp [transferWrites] at h
  | nosel => simp [transferWrites] at h
  | nisel q => simp [transferWrites] at h
  | byte a => simp [transferWrites] at h

/-- A flag write leaves every location it does not write (R230). -/
theorem putFlag_unwritten (f : Flag) (b : Bool) (s : State) (l : Loc)
    (h : flagWrites f l = false) :
    AgreeAt l s (s.putFlag f b) := by
  cases l with
  | bit d j =>
    simp only [AgreeAt]
    by_cases h1 : d = .cfa
    · subst h1
      by_cases hj : j.val < 7
      · show (s.cfa.setWidth 16).getLsbD j.val = ((s.toRegs.writeFlag f b).cfa.setWidth 16).getLsbD j.val
        have := Regs.readFlag_writeFlag s.toRegs f (.cfa ⟨j.val, hj⟩) b
        have hne : Flag.cfa ⟨j.val, hj⟩ ≠ f := by
          rintro rfl; simp [flagWrites] at h
        rw [if_neg hne] at this
        simp only [Regs.readFlag] at this
        simp [BitVec.getLsbD_setWidth, -BitVec.getLsbD_eq_getElem, this]
      · show (s.cfa.setWidth 16).getLsbD j.val = ((s.toRegs.writeFlag f b).cfa.setWidth 16).getLsbD j.val
        simp [BitVec.getLsbD_setWidth, -BitVec.getLsbD_eq_getElem]; rw [BitVec.getLsbD_of_ge _ _ (by omega), BitVec.getLsbD_of_ge _ _ (by omega)]
    · by_cases h2 : d = .cfb
      · subst h2
        by_cases hj : j.val < 7
        · show (s.cfb.setWidth 16).getLsbD j.val = ((s.toRegs.writeFlag f b).cfb.setWidth 16).getLsbD j.val
          have := Regs.readFlag_writeFlag s.toRegs f (.cfb ⟨j.val, hj⟩) b
          have hne : Flag.cfb ⟨j.val, hj⟩ ≠ f := by
            rintro rfl; simp [flagWrites] at h
          rw [if_neg hne] at this
          simp only [Regs.readFlag] at this
          simp [BitVec.getLsbD_setWidth, -BitVec.getLsbD_eq_getElem, this]
        · show (s.cfb.setWidth 16).getLsbD j.val = ((s.toRegs.writeFlag f b).cfb.setWidth 16).getLsbD j.val
          simp [BitVec.getLsbD_setWidth, -BitVec.getLsbD_eq_getElem]; rw [BitVec.getLsbD_of_ge _ _ (by omega), BitVec.getLsbD_of_ge _ _ (by omega)]
      · rw [State.putFlag_toRegs, Regs.writeFlag_dest _ _ _ _ h1 h2]
  | flag g =>
    simp only [AgreeAt, State.putFlag_toRegs, Regs.readFlag_writeFlag]
    have : ¬ g = f := by rintro rfl; simp [flagWrites] at h
    simp [this]
  | nosel => exact (Regs.writeFlag_rest s.toRegs f b).2.1.symm
  | nisel q => simp only [AgreeAt]; rw [State.putFlag_toRegs, (Regs.writeFlag_rest s.toRegs f b).2.2.1]
  | byte a => rfl

/-- What a flag write writes does not depend on the state it writes to (R178, R230). -/
theorem putFlag_written (f : Flag) (b : Bool) (s s' : State) (l : Loc)
    (h : flagWrites f l = true) :
    AgreeAt l (s.putFlag f b) (s'.putFlag f b) := by
  cases l with
  | bit d j =>
    simp only [AgreeAt]
    cases f with
    | cfa i =>
      simp [flagWrites] at h; obtain ⟨rfl, h⟩ := h
      have h1 := Regs.readFlag_writeFlag s.toRegs (.cfa i) (.cfa i) b
      have h2 := Regs.readFlag_writeFlag s'.toRegs (.cfa i) (.cfa i) b
      simp only [Regs.readFlag, if_true] at h1 h2
      show ((s.toRegs.writeFlag (.cfa i) b).cfa.setWidth 16).getLsbD j.val = ((s'.toRegs.writeFlag (.cfa i) b).cfa.setWidth 16).getLsbD j.val
      simp [BitVec.getLsbD_setWidth, -BitVec.getLsbD_eq_getElem, ← h, h1, h2]
    | cfb i =>
      simp [flagWrites] at h; obtain ⟨rfl, h⟩ := h
      have h1 := Regs.readFlag_writeFlag s.toRegs (.cfb i) (.cfb i) b
      have h2 := Regs.readFlag_writeFlag s'.toRegs (.cfb i) (.cfb i) b
      simp only [Regs.readFlag, if_true] at h1 h2
      show ((s.toRegs.writeFlag (.cfb i) b).cfb.setWidth 16).getLsbD j.val = ((s'.toRegs.writeFlag (.cfb i) b).cfb.setWidth 16).getLsbD j.val
      simp [BitVec.getLsbD_setWidth, -BitVec.getLsbD_eq_getElem, ← h, h1, h2]
    | _ => simp [flagWrites] at h
  | flag g =>
    simp only [AgreeAt, State.putFlag_toRegs, Regs.readFlag_writeFlag]
    have : g = f := by simp only [flagWrites, beq_iff_eq] at h; exact h.symm
    simp [this]
  | nosel => simp [flagWrites] at h
  | nisel q => simp [flagWrites] at h
  | byte a => simp [flagWrites] at h


/-- Every command completes in every state (R183). -/
theorem exec_next (i : Instr) (s : State) : ∃ t, exec i s = .next t := by cases i <;> exact ⟨_, rfl⟩

/-- So does every list of commands. -/
theorem runCommands_next (is : List Instr) (s : State) : ∃ t, runCommands is s = .next t := by
  induction is generalizing s with
  | nil => exact ⟨s, rfl⟩
  | cons i is ih =>
    obtain ⟨u, hu⟩ := exec_next i s
    obtain ⟨t, ht⟩ := ih u
    exact ⟨t, by simp [runCommands, hu, ht]⟩

/-- A dispatch is its selected commands, and then it is over (R183). -/
theorem dispatch_next (chart : List Entry) (k : Knots) (s : State) :
    ∃ t, dispatch chart k s = .next (t.setDisp none) ∧
      runCommands (selected chart s.pi s.toArch k) (s.beginDispatch k) = .next t := by
  obtain ⟨t, ht⟩ := runCommands_next (selected chart s.pi s.toArch k) (s.beginDispatch k)
  exact ⟨t, by simp [dispatch, ht], ht⟩

/-- A chart decodes entry by entry, in declaration order (R173). -/
theorem decodeChart_ok_iff {gs : GuardTable} {ws : List EntryWord} {es : List Entry} :
    decodeChart gs ws = .ok es ↔ List.Forall₂ (fun w n => decodeEntry gs w = .ok n) ws es := by
  induction ws generalizing es with
  | nil => simp only [decodeChart, List.forall₂_nil_left_iff]; exact ⟨fun h => by cases h; rfl, fun h => by rw [h]⟩
  | cons w ws ih =>
    rw [List.forall₂_cons_left_iff]
    unfold decodeChart
    constructor
    · intro h; split at h
      · cases h
      · rename_i e he; split at h
        · cases h
        · rename_i es' hes; cases h; exact ⟨e, es', he, ih.mp hes, rfl⟩
    · rintro ⟨e, es', he, hes, rfl⟩; simp [he, ih.mpr hes]

/-- The charts decode one by one, each under its value. -/
theorem decodeCharts_ok_iff {gs : GuardTable} {cs : RawCharts} {table : ChartTable} :
    decodeCharts gs cs = .ok table ↔
      List.Forall₂ (fun (c : Byte × List EntryWord) (t : Byte × List Entry) =>
        t.1 = c.1 ∧ List.Forall₂ (fun w n => decodeEntry gs w = .ok n) c.2 t.2) cs table := by
  induction cs generalizing table with
  | nil => simp only [decodeCharts, List.forall₂_nil_left_iff]; exact ⟨fun h => by cases h; rfl, fun h => by rw [h]⟩
  | cons c cs ih =>
    obtain ⟨m, ws⟩ := c
    rw [List.forall₂_cons_left_iff]
    unfold decodeCharts
    constructor
    · intro h; split at h
      · cases h
      · rename_i e he; split at h
        · cases h
        · rename_i es' hes; cases h; exact ⟨(m, e), es', ⟨rfl, decodeChart_ok_iff.mp he⟩, ih.mp hes, rfl⟩
    · rintro ⟨⟨m', e⟩, es', ⟨h1, he⟩, hes, rfl⟩; simp only at h1 he; subst h1; simp [decodeChart_ok_iff.mpr he, ih.mpr hes]

/-- Literals resolve when each of them names a signal (R113). -/
theorem resolveLiterals_ok_iff {ls : List RawLiteral} :
    (∃ r, resolveLiterals ls = .ok r) ↔ ∀ l ∈ ls, ∃ x, Signal.ofId l.sigId = some x := by
  induction ls with
  | nil => simp [resolveLiterals]
  | cons l ls ih =>
    unfold resolveLiterals
    simp only [List.mem_cons, forall_eq_or_imp, ← ih]
    cases h : Signal.ofId l.sigId <;> simp
    cases h2 : resolveLiterals ls <;> simp

/-- Registration keeps which values have a chart, and decodes each chart (R182). -/
theorem decodeCharts_lookup {gs : GuardTable} {cs : RawCharts} {table : ChartTable}
    (h : decodeCharts gs cs = .ok table) (ms : Byte) :
    (cs.lookup ms = none ↔ table.lookup ms = none) ∧
    ∀ ws, cs.lookup ms = some ws → ∃ es, decodeChart gs ws = .ok es ∧ table.lookup ms = some es := by
  induction cs generalizing table with
  | nil => cases h; simp
  | cons p rest ih =>
    obtain ⟨k, ws0⟩ := p
    unfold decodeCharts at h
    split at h
    · cases h
    · rename_i es hes
      split at h
      · cases h
      · rename_i tb htb
        cases h
        have := ih htb
        simp only [List.lookup]
        split
        · refine ⟨by simp, ?_⟩; intro ws hw; cases hw; exact ⟨es, hes, rfl⟩
        · exact this

/-- A table that passed the registration check is the decoded one. -/
theorem register_charts {gs : GuardTable} {cs : RawCharts} {table : ChartTable} (h : register gs cs = .ok table) :
    decodeCharts gs cs = .ok table := by
  unfold register at h; split at h
  · split at h
    · cases h
    · exact h
  · cases h

/-- With no host call waiting a step is one `advance_pulse` (R153). -/
theorem step_of_noCalls {s : State} (h : s.calls = []) : step s = advancePulse Config.hookFns s := by
  simp [step, hostTurn, h]

/-- A running engine with registered tables runs the pulse. -/
theorem advancePulse_of_registered {s : State} {table : ChartTable} (h : HookFns) (hr : s.status = .running)
    (ht : register s.guards s.charts = .ok table) : advancePulse h s = pulseOn h table s := by
  simp [advancePulse, hr, ht]

/-- The snapshot of step 1 changes PMS alone (R141). -/
theorem State.beginCycle_keeps (s : State) :
    HooksKeep s s.beginCycle ∧ s.beginCycle.ms = s.ms ∧ s.beginCycle.mem = s.mem ∧ s.beginCycle.seq = s.seq ∧
      s.beginCycle.pms = (if s.pi = 0 then s.ms else s.pms) := by
  unfold State.beginCycle
  split <;> exact ⟨⟨rfl, rfl, rfl, rfl, rfl, rfl, rfl⟩, rfl, rfl, rfl, rfl⟩

/-- With no hook registered a pulse goes from the snapshot to the lookup. -/
theorem pulseOn_of_noHooks {s : State} {table : ChartTable} (h : HookFns) (hh : s.hooks = []) :
    pulseOn h table s = pulseFromLookup h table s.beginCycle := by
  unfold pulseOn
  rw [clockHooks_of_none (s.beginCycle_keeps.1.hooks.trans hh)]

/-- Everything one `advance_pulse` can do (R148): refuse, fail in an on-clock hook, miss the chart, fail in
an on-pulse hook, or dispatch and end the pulse. -/
theorem advancePulse_cases (h : HookFns) (s : State) (o : Host.Outcome State Fault Refusal) (ho : advancePulse h s = o) :
   (∃ r, o = .refused r) ∨ ∃ table t, s.status = .running ∧ register s.guards s.charts = .ok table ∧ HooksKeep s.beginCycle t ∧
     ((∃ e, clockHooks h s.beginCycle = (t, some e) ∧ raiseFatal (.peripheralFailure e) t = o) ∨
      (clockHooks h s.beginCycle = (t, none) ∧ table.lookup t.ms = none ∧ raiseFatal .chartMissing t = o) ∨
      (∃ chart u, clockHooks h s.beginCycle = (t, none) ∧ table.lookup t.ms = some chart ∧ HooksKeep t u ∧
        ((∃ e, runHooks h.onPulse t.hooks t = (u, some e) ∧ raiseFatal (.peripheralFailure e) u = o) ∨
         (∃ v, runHooks h.onPulse t.hooks t = (u, none) ∧ dispatch chart (knotsOf t.toArch) u = .next v ∧ endPulse v = o)))) := by
  unfold advancePulse at ho
  split at ho
  · rename_i hr
    split at ho
    · exact .inl ⟨_, ho.symm⟩
    · rename_i table ht
      right
      unfold pulseOn at ho
      have hk : HooksKeep s.beginCycle (clockHooks h s.beginCycle).1 := by
        unfold clockHooks; split
        · exact runHooks_keep ..
        · exact HooksKeep.refl _
      split at ho
      · rename_i t e he
        rw [he] at hk
        exact ⟨table, t, hr, ht, hk, .inl ⟨e, he, ho⟩⟩
      · rename_i t he
        rw [he] at hk
        refine ⟨table, t, hr, ht, hk, .inr ?_⟩
        unfold pulseFromLookup at ho
        split at ho
        · exact .inl ⟨he, by assumption, ho⟩
        · rename_i chart hl
          right
          unfold pulseWithChart at ho
          have hk2 := runHooks_keep h.onPulse t.hooks t
          split at ho
          · rename_i u e hu
            rw [hu] at hk2
            exact ⟨chart, u, he, hl, hk2, .inl ⟨e, hu, ho⟩⟩
          · rename_i u hu
            rw [hu] at hk2
            obtain ⟨v', hv, _⟩ := dispatch_next chart (knotsOf t.toArch) u
            simp only [hv] at ho
            exact ⟨chart, u, he, hl, hk2, .inr ⟨_, hu, hv, ho⟩⟩
  · exact .inl ⟨_, ho.symm⟩

end Sys2Proof.Machine
end

