-- ==== Sys2Proof/Laws/PerInstr.lean ====
section
/-!
SUPPORT. A fact about every command as syntax, one lemma per constructor of `Instr`: its word matches
its row of the opcode map (R115).
-/

namespace Sys2Proof.Laws

/-- The match value of a command's row (R115). -/
def rowMatch : Instr → CmdWord
  | .itNo _ _ => 0x10000000
  | .itNa _ _ => 0x11000000
  | .itNi _ _ => 0x12000000
  | .itCn _ _ => 0x13000000
  | .otNo _ => 0x20000000
  | .otNi _ => 0x22000000
  | .setf _ => 0x30000000
  | .clrf _ => 0x40000000
  | .togf _ => 0x50000000
  | .latchAB => 0x60000000
  | .latchBA => 0x60000001
  | .mr => 0x70000000
  | .mw => 0x80000000

/-- The mask of a command's row (R115). -/
def rowMask : Instr → CmdWord
  | .itNo _ _ | .itNa _ _ | .itNi _ _ | .itCn _ _ => 0xFF000000
  | .otNo _ => 0xFFFFFFF0
  | .otNi _ => 0xFFFFF000
  | .setf _ | .clrf _ | .togf _ => 0xFFFFFF00
  | .latchAB | .latchBA | .mr | .mw => 0xFFFFFFFF

/-- The encoded word matches the row. -/
def EncodedRow.Statement (i : Instr) : Prop := encode i &&& rowMask i = rowMatch i

/-- The high part of a word whose low part the mask clears. -/
theorem append_and_mask {n k : Nat} (a : BitVec n) (b : BitVec k) :
    (a ++ b) &&& (BitVec.allOnes n ++ (0 : BitVec k)) = a ++ (0 : BitVec k) := by
  simp [BitVec.and_append]

theorem transfer_row (c : Byte) (d : Dest) (m : Word) :
    encodeTransfer c d m &&& 0xFF000000 = c ++ (0 : BitVec 24) :=
  append_and_mask c (d.id ++ m)

theorem EncodedRow.itNo (d : Dest) (m : Word) : EncodedRow.Statement (.itNo d m) := transfer_row _ _ _
theorem EncodedRow.itNa (d : Dest) (m : Word) : EncodedRow.Statement (.itNa d m) := transfer_row _ _ _
theorem EncodedRow.itNi (d : Dest) (m : Word) : EncodedRow.Statement (.itNi d m) := transfer_row _ _ _
theorem EncodedRow.itCn (d : Dest) (m : Word) : EncodedRow.Statement (.itCn d m) := transfer_row _ _ _
theorem EncodedRow.otNo (s : NoSrc) : EncodedRow.Statement (.otNo s) := append_and_mask (0x2000000 : BitVec 28) s.id
theorem EncodedRow.otNi (q : Quartets (Option NiSel)) : EncodedRow.Statement (.otNi q) :=
  append_and_mask (0x22000 : BitVec 20) _
theorem EncodedRow.setf (f : Flag) : EncodedRow.Statement (.setf f) := append_and_mask (0x300000 : BitVec 24) f.id
theorem EncodedRow.clrf (f : Flag) : EncodedRow.Statement (.clrf f) := append_and_mask (0x400000 : BitVec 24) f.id
theorem EncodedRow.togf (f : Flag) : EncodedRow.Statement (.togf f) := append_and_mask (0x500000 : BitVec 24) f.id
theorem EncodedRow.latchAB : EncodedRow.Statement .latchAB := rfl
theorem EncodedRow.latchBA : EncodedRow.Statement .latchBA := rfl
theorem EncodedRow.mr : EncodedRow.Statement .mr := rfl
theorem EncodedRow.mw : EncodedRow.Statement .mw := rfl

end Sys2Proof.Laws
end

