-- ==== Sys2Proof/Tests/Slice0.lean ====
section
/-!
SUPPORT. Tests with the values of spec/95_test_vectors.md (the id of each vector in its docstring), and
a witness for the premises of each statement that has any.
-/

namespace Sys2Proof.Machine.Tests

open Sys2Proof Sys2Proof.Machine

/-! ## Helpers -/

/-- A state at creation but for some registers. -/
def withRegs (f : Regs → Regs) : State := State.reset.setRegs (f Regs.reset)

/-- One field of the next state of some commands of one pulse, in order. -/
def after {α : Type} (is : List Instr) (s : State) (f : State → α) : Option α :=
  match runCommands is (s.setDisp (some ⟨s.toArch, knotsOf s.toArch⟩)) with
  | .next t => some (f t)
  | .fault _ => none
  | .refused _ => none

/-- The same with given knot values. -/
def afterK {α : Type} (k : Knots) (is : List Instr) (s : State) (f : State → α) : Option α :=
  match runCommands is (s.setDisp (some ⟨s.toArch, k⟩)) with
  | .next t => some (f t)
  | .fault _ => none
  | .refused _ => none

/-- One field of an outcome that is a next state. -/
def nextOf {α : Type} (o : Host.Outcome State Fault Refusal) (f : State → α) : Option α :=
  match o with
  | .next t => some (f t)
  | .fault _ => none
  | .refused _ => none

/-- One field of the state a fault leaves, with the fault's MS and PI. -/
def faultOf {α : Type} (o : Host.Outcome State Fault Refusal) (f : State → α) : Option (Byte × Nat × FailureKind × α) :=
  match o with
  | .next _ => none
  | .fault (.chartMissing m p t) => some (m, p.val, .chartMissing, f t)
  | .fault (.stall m p t) => some (m, p.val, .stall, f t)
  | .fault (.peripheralFailure e m p t) => some (m, p.val, .peripheralFailure e, f t)
  | .refused _ => none

/-- Knot values that are all 0, to set one of. -/
def zeroK : Knots :=
  { no := 0, na := 0, ni := 0, cn := 0, ch1a := false, ch2a := false, ch3a := false, cpua := false, jcv := false }

/-- Hooks for tests: hook 1 errs with 7, hook 2 writes MS = 0x99 and the byte 0x11 at address 5, any
other hook leaves everything. -/
def testAnswer (name _seq : Nat) (a : Arch) : HookAnswer :=
  if name = 1 then .err 7
  else if name = 2 then .ok ⟨{ a.toRegs with ms := 0x99 }, [(5, 0x11)]⟩
  else .ok ⟨a.toRegs, []⟩

/-- Hooks whose every call answers so. -/
def testHooks : HookFns := ⟨testAnswer, testAnswer, testAnswer, testAnswer⟩

/-- Hooks whose on-clock calls leave everything and whose on-pulse calls answer as `testAnswer`. -/
def pulseHooks : HookFns := ⟨testAnswer, fun _ _ a => .ok ⟨a.toRegs, []⟩, testAnswer, testAnswer⟩

/-! ## Well-formedness: each check refuses an ill-formed term -/

/-- V-ENC-8: a zero mask. -/
theorem test_wf_zero_mask : Instr.wf (.itNo .pa 0x0000) = false := by decide
/-- V-ENC-7: a mask that is not one run. -/
theorem test_wf_split_mask : Instr.wf (.itNo .pa 0x0505) = false := by decide
/-- V-ENC-4, V-ENC-6: a mask bit at or above the width, for an 8-bit and a 7-bit destination. -/
theorem test_wf_wide_mask : Instr.wf (.itNi .ms 0x0100) = false ∧ Instr.wf (.itNa .cfb 0x00FF) = false := by decide
/-- V-ENC-17: no quartet. -/
theorem test_wf_no_quartet : Instr.wf (.otNi ⟨none, none, none, none⟩) = false := by decide
/-- R112: a register-selector or further flag at or above the count of the configuration. -/
theorem test_wf_missing_flag (i : Fin 8) (h : Config.nRsb.val ≤ i.val) : Instr.wf (.setf (.rsb i)) = false := by
  simp [Instr.wf, Flag.legal]; omega
/-- Well-formed at the widest and the narrowest mask of R106. -/
theorem test_wf_masks : Instr.wf (.itCn .dO 0xFFFF) = true ∧ Instr.wf (.itNo .cfb 0x007F) = true ∧
    Instr.wf (.itNo .ms 0x0080) = true := by decide

/-! ## Decoding: words written from the encoding tables of spec file 30 -/

/-- V-ENC-1 and V-ENC-5: IT.NO. -/
theorem test_decode_itNo : decode 0x100600F0 = .ok (.itNo .lr1 0x00F0) ∧ decode 0x1011007F = .ok (.itNo .cfb 0x007F) := by decide
/-- V-ENC-2: IT.NA. -/
theorem test_decode_itNa : decode 0x110000FF = .ok (.itNa .ms 0x00FF) := by decide
/-- R122: IT.NI. -/
theorem test_decode_itNi : decode 0x1210007F = .ok (.itNi .cfa 0x007F) := by decide
/-- V-ENC-3: IT.CN. -/
theorem test_decode_itCn : decode 0x130BFFFF = .ok (.itCn .dO 0xFFFF) := by decide
/-- V-ENC-11 and V-OT-2: OT.NO. -/
theorem test_decode_otNo : decode 0x20000009 = .ok (.otNo .consw) ∧ decode 0x20000006 = .ok (.otNo .lr2) := by decide
/-- V-ENC-16 and V-OT-9: OT.NI. -/
theorem test_decode_otNi :
    decode 0x22000F09 = .ok (.otNi ⟨some .rrLow, some .rrHigh, some .cn, some .cn⟩) ∧
    decode 0x220009C3 = .ok (.otNi ⟨some .zero, none, none, some .zero⟩) := by decide
/-- V-ENC-20 and V-FLAG-6: SETF. -/
theorem test_decode_setf : decode 0x30000017 = .ok (.setf .cnz) ∧ decode 0x3000001B = .ok (.setf .req1) := by decide
/-- V-FLAG-2 and V-FLAG-8: CLRF. -/
theorem test_decode_clrf : decode 0x40000011 = .ok (.clrf .halted) ∧ decode 0x4000000E = .ok (.clrf (.cfb 6)) := by decide
/-- V-ENC-25 and V-FLAG-3: TOGF. -/
theorem test_decode_togf : decode 0x5000000E = .ok (.togf (.cfb 6)) ∧ decode 0x50000004 = .ok (.togf (.cfa 4)) := by decide
/-- V-ENC-26: LATCH. -/
theorem test_decode_latch : decode 0x60000000 = .ok .latchAB ∧ decode 0x60000001 = .ok .latchBA := by decide
/-- V-ENC-28: MR and MW. -/
theorem test_decode_memory : decode 0x70000000 = .ok .mr ∧ decode 0x80000000 = .ok .mw := by decide
/-- V-ENC-4 and V-ENC-6 to V-ENC-10: illegal input transfers. -/
theorem test_illegal_it :
    decode 0x10000100 = .error .illegalMask ∧ decode 0x101100FF = .error .illegalMask ∧
    decode 0x10010505 = .error .illegalMask ∧ decode 0x10010000 = .error .illegalMask ∧
    decode 0x14000001 = .error .reservedItSource ∧ decode 0x10120001 = .error .reservedDest := by decide
/-- V-ENC-12 to V-ENC-15, V-ENC-17, V-ENC-18: illegal output transfers. -/
theorem test_illegal_ot :
    decode 0x2000000A = .error .reservedNoSource ∧ decode 0x20000101 = .error .otNoPadding ∧
    decode 0x21000000 = .error .reservedOtKnot ∧ decode 0x23000000 = .error .reservedOtKnot ∧
    decode 0x22000000 = .error .noQuartet ∧ decode 0x22000104 = .error .unusedSelector ∧
    decode 0x22001101 = .error .otNiPadding := by decide
/-- V-ENC-21, V-ENC-22, V-ENC-24, V-ENC-27, V-ENC-29, V-ENC-30: the other illegal words. -/
theorem test_illegal_other :
    decode 0x30000007 = .error .reservedFlag ∧ decode 0x30000117 = .error .flagPadding ∧
    decode 0x30000080 = .error .reservedFlag ∧ decode 0x60000002 = .error .latchPadding ∧
    decode 0x70000001 = .error .memoryPadding ∧ decode 0x00000000 = .error .reservedClass ∧
    decode 0x90000000 = .error .reservedClass ∧ decode 0xF0000000 = .error .reservedClass := by decide
/-- V-ENC-31 to V-ENC-34, and an undefined guard (R102). -/
theorem test_entry_words :
    decodeEntry [] 0x3000001700000013 = .ok ⟨19, .all [], .setf .cnz⟩ ∧
    decodeEntry [] 0x3000001700000014 = .error .sentinelPosition ∧
    decodeEntry [] 0x3000001700000020 = .error .entryPadding ∧
    decodeEntry [] 0x3000001700010000 = .error .entryPadding ∧
    decodeEntry [] 0x7000000000000305 = .error .undefinedGuard := by decide
/-- V-ENC-35, with G3 = CH1A (signal id 0x80). -/
theorem test_entry_guard :
    decodeEntry [(3, .all [⟨true, 0x80⟩])] 0x7000000000000305 = .ok ⟨5, .all [⟨true, .ch1a⟩], .mr⟩ := by decide
/-- A reserved signal id in a guard (X12), a guard table that defines id 0, a value with two charts. -/
theorem test_register_refuses :
    register [(3, .all [⟨true, 0x85⟩])] [] = .error .reservedSignal ∧
    register [(0, .all [])] [] = .error .tableKeys ∧
    register [] [(0x20, []), (0x20, [])] = .error .tableKeys := by decide
/-- The encoder writes the words of R122. -/
theorem test_encode :
    encode (.itNo .lr1 0x00F0) = 0x100600F0 ∧ encode (.otNi ⟨some .rrLow, some .rrHigh, some .cn, some .cn⟩) = 0x22000F09 ∧
    encode (.togf (.cfa 6)) = 0x50000006 ∧ encodeEntry 19 0 (encode .mw) = 0x8000000000000013 := by decide
/-- The text column of R122, for one command of each kind of operand. -/
theorem test_text :
    (Instr.itNo .lr1 0x00F0).text = "IT NO -> LR1 mask 0x00F0" ∧ (Instr.itCn .dO 0xFFFF).text = "IT CN -> DO" ∧
    (Instr.otNo .consw).text = "OT NO <- SW" ∧ (Instr.togf (.cfa 6)).text = "TOG CFA.6" ∧
    (Instr.otNi ⟨some .rrLow, some .rrHigh, some .cn, some .cn⟩).text = "OT NI q0=RRL, q1=RRH, q2=CN, q3=CN" ∧
    entryText 10 1 .mr = "P10 if G1 MR" ∧ guardText 2 [⟨true, .cpua⟩, ⟨false, .flag (.cfa 0)⟩] = "G2 = CPUA & !CFA.0" ∧
    (chartLines 0x3C [(0, 0, .mw)]).length = 3 := by decide
/-- A table word of 32 bits, and one with a bit above them. -/
theorem test_table_word : decodeTableWord 32 0x70000000 = some .mr ∧ decodeTableWord 40 0x170000000 = none := by decide

/-! ## The commands, one pulse each -/

/-- V-IT-1 and V-IT-2. -/
theorem test_itNo :
    after [.itNo .lr2 0x00F0] (withRegs fun r => { r with nosel := .lr1, lr1 := 0xABCD, lr2 := 0x1234 }) (·.lr2) = some 0x12C4 ∧
    after [.itNo .pa 0xFFFF] (withRegs fun r => { r with nosel := .consw, consw := 0xBEEF }) (·.pa) = some 0xBEEF := by decide
/-- V-IT-3 and V-IT-11. -/
theorem test_itNo_narrow :
    afterK { zeroK with no := 0x12D8 } [.itNo .ms 0x00FF] (withRegs fun r => { r with ms := 0xC8 }) (·.ms) = some 0xD8 ∧
    afterK { zeroK with no := 0x00D0 } [.itNo .cfb 0x0070] (withRegs fun r => { r with cfb := 0x05 }) (·.cfb) = some 0x55 := by decide
/-- V-IT-4: NA is zero-extended. -/
theorem test_itNa : afterK { zeroK with na := 0xC8 } [.itNa .dO 0xFFFF] (withRegs fun r => { r with dO := 0xFFFF }) (·.dO) = some 0x00C8 := by decide
/-- V-IT-5 and V-IT-12. -/
theorem test_itNi :
    after [.itNi .rr 0x00FF] (withRegs fun r => { r with dO := 0x12FF, cnz := true, rr := 0x77 }) (·.rr) = some 0x00 ∧
    after [.itNi .cfa 0x007F] (withRegs fun r => { r with rr := 0xAB, nisel := ⟨.rrLow, .rrHigh, .cn, .cn⟩ }) (·.cfa) = some 0x2B := by decide
/-- V-IT-6, V-IT-10 and V-IT-13. -/
theorem test_itCn :
    after [.itCn .dO 0xFFFF] (withRegs fun r => { r with dO := 0xFFFF, cnz := true }) (·.dO) = some 0x0000 ∧
    after [.itCn .dO 0xFFFF, .itCn .dO 0xFFFF, .itCn .dO 0xFFFF] (withRegs fun r => { r with dO := 0x0005, cnz := true }) (·.dO) = some 0x0006 ∧
    after [.itCn .oa1 0x00FF] (withRegs fun r => { r with dO := 0x12FF, cnz := true, oa1 := 0xFFFF }) (·.oa1) = some 0xFF00 := by decide
/-- V-IT-8 and V-IT-9: on shared bits the later transfer wins. -/
theorem test_later_wins :
    afterK { zeroK with cn := 0x1300, no := 0xABCD } [.itCn .dO 0xFFFF, .itNo .dO 0x00FF] (withRegs fun r => { r with dO := 0x12FF }) (·.dO) = some 0x13CD ∧
    afterK { zeroK with cn := 0x1300, no := 0xABCD } [.itNo .dO 0x00FF, .itCn .dO 0xFFFF] (withRegs fun r => { r with dO := 0x12FF }) (·.dO) = some 0x1300 := by decide
/-- V-MEM-1 and V-MEM-6. -/
theorem test_mr :
    after [.mr] ((withRegs fun r => { r with nosel := .oa1, oa1 := 0x0010 }).setMem [(0x10, 0x5A)]) (·.rr) = some 0x5A ∧
    afterK { zeroK with no := 0x0005 } [.mr, .itNo .rr 0x000F] (State.reset.setMem [(5, 0x11)]) (·.rr) = some 0x15 := by decide
/-- V-MEM-2 and V-MEM-3: the last byte of memory; a written 0x00 leaves no cell. -/
theorem test_mw :
    afterK { zeroK with no := 0x0002, ni := 0x12BD } [.mw] State.reset (·.mem) = some [(2, 0xBD)] ∧
    afterK { zeroK with no := 0xFFFF, ni := 0x0001 } [.mw] State.reset (·.mem) = some [(0xFFFF, 0x01)] ∧
    afterK { zeroK with no := 0x0002, ni := 0x1200 } [.mw] (State.reset.setMem [(2, 0xBD)]) (·.mem) = some [] := by decide
/-- V-MEM-4 and V-MEM-5: the read sees the old byte, in either order. -/
theorem test_mr_beside_mw :
    afterK { zeroK with no := 5, ni := 0x22 } [.mw, .mr] (State.reset.setMem [(5, 0x11)]) (fun t => (t.mem, t.rr)) = some ([(5, 0x22)], 0x11) ∧
    afterK { zeroK with no := 5, ni := 0x22 } [.mr, .mw] (State.reset.setMem [(5, 0x11)]) (fun t => (t.mem, t.rr)) = some ([(5, 0x22)], 0x11) := by decide
/-- V-OT-1 and V-OT-2. -/
theorem test_otNo :
    after [.otNo .oa1] State.reset (·.nosel) = some .oa1 ∧ after [.otNo .oa1, .otNo .lr2] State.reset (·.nosel) = some .lr2 := by decide
/-- V-OT-7 and V-OT-9. -/
theorem test_otNi :
    after [.otNi ⟨none, some .zero, none, none⟩] (withRegs fun r => { r with nisel := ⟨.rrLow, .rrHigh, .cn, .cn⟩ }) (·.nisel) = some ⟨.rrLow, .zero, .cn, .cn⟩ ∧
    after [.otNi ⟨some .rrLow, none, none, none⟩, .otNi ⟨some .zero, none, none, some .zero⟩] State.reset (·.nisel) = some ⟨.zero, .cn, .cn, .zero⟩ := by decide
/-- V-OT-3 (its P3) and V-OT-4: a transfer beside the selection takes the old source. -/
theorem test_otNo_latency :
    after [.otNo .oa1, .itNo .lr3 0xFFFF] (withRegs fun r => { r with pa := 0x1111, oa1 := 0x2222 }) (·.lr3) = some 0x1111 ∧
    after [.itNo .lr3 0xFFFF, .otNo .oa1] (withRegs fun r => { r with pa := 0x1111, oa1 := 0x2222 }) (·.lr3) = some 0x1111 := by decide
/-- V-FLAG-1 and V-FLAG-7. -/
theorem test_setf : after [.setf .cnz] State.reset (·.cnz) = some true ∧ after [.clrf .req1, .setf .req1] State.reset (·.req1) = some true := by decide
/-- V-FLAG-2 and V-FLAG-8. -/
theorem test_clrf : after [.clrf .halted] State.reset (·.halted) = some false ∧
    after [.clrf (.cfb 6)] (withRegs fun r => { r with cfb := 0x7F }) (·.cfb) = some 0x3F := by decide
/-- V-FLAG-3 and V-FLAG-4: a toggle reads S0. -/
theorem test_togf :
    after [.togf (.cfa 4), .togf (.cfa 4)] (withRegs fun r => { r with cfa := 0x50 }) (·.cfa) = some 0x40 ∧
    after [.setf (.cfa 0), .togf (.cfa 0)] State.reset (·.cfa) = some 0x01 := by decide
/-- V-LATCH-2 and V-LATCH-3. -/
theorem test_latch :
    after [.latchAB, .latchBA] (withRegs fun r => { r with cfa := 0x01, cfb := 0x40 }) (fun t => (t.cfa, t.cfb)) = some (0x40, 0x01) ∧
    after [.setf (.cfa 0), .latchAB] State.reset (fun t => (t.cfa, t.cfb)) = some (0x01, 0x00) := by decide
/-- V-LATCH-4 and V-LATCH-5. -/
theorem test_latch_order :
    after [.latchAB, .setf (.cfb 1)] (withRegs fun r => { r with cfa := 0x10 }) (·.cfb) = some 0x12 ∧
    after [.setf (.cfb 1), .latchAB] (withRegs fun r => { r with cfa := 0x10 }) (·.cfb) = some 0x10 := by decide

/-! ## The knots -/

/-- V-KNOT-1, V-KNOT-3 and V-KNOT-2 (both forcing sources, with test values). -/
theorem test_no_knot :
    let r := { Regs.reset with pa := 0x0100, oa1 := 0x0101, oa4 := 0x0104, lr2 := 0x0106, consw := 0x8001 }
    noKnot 0xF1 0xF2 { r with nosel := .pa } = 0x0100 ∧ noKnot 0xF1 0xF2 { r with nosel := .oa4 } = 0x0104 ∧
    noKnot 0xF1 0xF2 { r with nosel := .lr2 } = 0x0106 ∧ noKnot 0xF1 0xF2 { r with nosel := .force1 } = 0xF1 ∧
    noKnot 0xF1 0xF2 { r with nosel := .force2 } = 0xF2 ∧ noKnot 0xF1 0xF2 { r with nosel := .consw } = 0x8001 := by decide
/-- V-KNOT-5 to V-KNOT-9. -/
theorem test_ni_knot :
    let r := { Regs.reset with rr := 0xAB, dO := 0x12FF, cnz := true }
    niKnot r = 0x1300 ∧ niKnot { r with nisel := ⟨.rrLow, .rrHigh, .cn, .cn⟩ } = 0x00AB ∧
    niKnot { r with nisel := ⟨.rrHigh, .rrLow, .zero, .rrLow⟩ } = 0xB0BA ∧ niKnot { r with nisel := ⟨.cn, .cn, .cn, .zero⟩ } = 0x0000 ∧
    niKnot { r with nisel := ⟨.rrHigh, .rrHigh, .rrHigh, .rrHigh⟩ } = 0xAAAA := by decide
/-- V-KNOT-10 to V-KNOT-13. The polarity of one of these signals is in doubt against the original manual
(R261): this is the uninverted polarity the spec keeps. -/
theorem test_channels :
    channels false true true true = ⟨true, false, false, false⟩ ∧ channels true true false false = ⟨true, false, false, true⟩ ∧
    channels true false false false = ⟨false, false, false, true⟩ ∧ channels false false true true = ⟨false, false, true, false⟩ ∧
    channels false false true false = ⟨false, true, false, false⟩ := by decide

/-- The example JTAB of the V-JCV vectors. -/
def exampleCodes : JumpCodes :=
  { jop := 0x40, sop1 := 0x41, sop2 := 0x42
    p0 := ⟨0xF0, 0x00, ⟨.a, 0, true⟩⟩, p1 := ⟨0xF0, 0x10, ⟨.a, 0, false⟩⟩
    p2 := ⟨0xF0, 0x20, ⟨.a, 1, true⟩⟩, p3 := ⟨0xF0, 0x30, ⟨.b, 1, false⟩⟩
    s1 := ⟨.a, 2, true⟩, s2 := ⟨.b, 3, true⟩ }

/-- It passes the check of R263. -/
theorem exampleCodes_legal : exampleCodes.Legal := by
  refine ⟨by decide, by decide, by decide, ?_, ?_, ?_, ?_, ?_, ?_⟩ <;>
    exact JumpPattern.exclusive_of_value_ne rfl (by decide)

/-- The registers of a V-JCV vector. -/
def jumpRegs (fc sb : Byte) (cfa cfb : Group) : Regs := { Regs.reset with fc := fc, sb := sb, cfa := cfa, cfb := cfb }

/-- V-JCV-1 to V-JCV-8. -/
theorem test_jcv :
    jcvKnot exampleCodes (jumpRegs 0x40 0x05 0x01 0x00) = true ∧ jcvKnot exampleCodes (jumpRegs 0x40 0x05 0x00 0x00) = false ∧
    jcvKnot exampleCodes (jumpRegs 0x40 0x15 0x00 0x00) = true ∧ jcvKnot exampleCodes (jumpRegs 0x40 0x35 0x00 0x00) = true ∧
    jcvKnot exampleCodes (jumpRegs 0x40 0x45 0x7F 0x7F) = false ∧ jcvKnot exampleCodes (jumpRegs 0x41 0x00 0x04 0x00) = true ∧
    jcvKnot exampleCodes (jumpRegs 0x42 0x00 0x00 0x00) = false ∧ jcvKnot exampleCodes (jumpRegs 0x43 0x00 0x7F 0x7F) = false := by decide

/-! ## Pulses -/

/-- A state with one chart for 0x20, no hook and no host call. -/
def running (pi : Fin 20) (chart : List EntryWord) (f : Regs → Regs) : State :=
  { (withRegs fun r => f { r with ms := 0x20, pms := 0x20 }).setPi pi with charts := [(0x20, chart)] }

/-- `P19 GO NO` with NO = 0x0021, then `P19 IT NO -> LR3` (V-SEQ-2, V-SEQ-7). -/
def goChart : List EntryWord := [0x100000FF00000013, 0x1008FFFF00000013]

/-- V-SEQ-1: a pulse in the middle of a cycle. -/
theorem test_pulse_advances : nextOf (advancePulse testHooks (running 7 goChart id)) (fun t => (t.pi.val, t.pms, t.ms)) = some (8, 0x20, 0x20) := by decide
/-- V-SEQ-2 and V-SEQ-7: the last pulse moves MS, wraps PI, and runs the rest of the same chart. -/
theorem test_last_pulse :
    nextOf (advancePulse testHooks (running 19 goChart fun r => { r with pa := 0x0021 })) (fun t => (t.pi.val, t.ms, t.lr3)) = some (0, 0x21, 0x0021) := by decide
/-- V-SEQ-3: the snapshot at P0. -/
theorem test_snapshot : nextOf (advancePulse testHooks (running 0 [] fun r => { r with pms := 0x21 })) (fun t => (t.pi.val, t.pms)) = some (1, 0x20) := by decide
/-- V-SEQ-4: the on-clock hook moves MS after the snapshot and before the lookup. -/
theorem test_clock_hook :
    nextOf (advancePulse ⟨testAnswer, testAnswer, fun _ _ a => .ok ⟨a.toRegs, []⟩, testAnswer⟩
      { running 0 [] id with charts := [(0x99, [0x3000001700000000])], hooks := [2] }) (fun t => (t.pms, t.ms, t.cnz)) = some (0x20, 0x99, true) := by decide
/-- V-SEQ-8: a stall keeps the writes of its pulse. -/
theorem test_stall : faultOf (advancePulse testHooks (running 19 [0x3000001700000013] id)) (fun t => (t.cnz, t.pi.val, t.status)) =
    some (0x20, 19, .stall, true, 19, .failed .stall) := by decide
/-- V-L1-3: no chart. -/
theorem test_chart_missing : faultOf (advancePulse testHooks (running 7 [] fun r => { r with ms := 0x77 })) (fun t => (t.pi.val, t.status)) =
    some (0x77, 7, .chartMissing, 7, .failed .chartMissing) := by decide
/-- V-SEQ-9: a failed state has no step. -/
theorem test_failed_refused :
    (match advancePulse testHooks ((running 7 [] id).setStatus (.failed .stall)) with
     | .refused r => some r
     | .next _ => none
     | .fault _ => none) = some .engineFailed := by decide
/-- V-ERR-1: the second on-clock hook fails; the first one's writes stay, the third does not run. -/
theorem test_clock_failure :
    let o := advancePulse testHooks { running 0 [] (fun r => { r with pms := 0 }) with charts := [], hooks := [2, 1, 2] }
    faultOf o (fun t => (t.pms, t.seq)) = some (0x99, 0, .peripheralFailure 7, 0x20, 2) ∧
    faultOf o (fun t => t.mem.read 5) = some (0x99, 0, .peripheralFailure 7, 0x11) := by decide
/-- V-ERR-2: a missing chart before a failing on-pulse hook. -/
theorem test_missing_before_pulse_hook :
    faultOf (advancePulse pulseHooks { running 0 [] id with charts := [], hooks := [1] }) (fun t => t.pi.val) = some (0x20, 0, .chartMissing, 0) := by decide
/-- V-ERR-3: a failing on-pulse hook before the commands and the stall. -/
theorem test_pulse_hook_before_stall :
    faultOf (advancePulse pulseHooks { running 19 [0x3000001700000013] id with hooks := [1] }) (fun t => (t.cnz, t.pi.val)) =
      some (0x20, 19, .peripheralFailure 7, false, 19) := by decide
/-- V-FLAG-9: a guard sees S0. G1 = CFA.0; at P5, SET CFA.0 and then SET CNZ under G1. -/
theorem test_guard_snapshot :
    nextOf (advancePulse testHooks { running 5 [0x3000000000000005, 0x3000001700000105] id with guards := [(1, .all [⟨true, 0x00⟩])] })
      (fun t => (t.cfa, t.cnz)) = some (0x01, false) := by decide
/-- The on-pulse hook's write of MS is read by the same pulse's guards but no knot moved (R365): hook 2
writes address 5, which MR at P3 through NO = 5 reads. -/
theorem test_hook_memory :
    nextOf (advancePulse pulseHooks { running 3 [0x7000000000000003] (fun r => { r with pa := 5 }) with hooks := [2] }) (fun t => t.rr) = some 0x11 := by decide
/-- V-CTL-1, the fields that are not 0. -/
theorem test_reset : State.reset.powered = true ∧ State.reset.halted = true ∧ State.reset.ms = 0 ∧ State.reset.pi = 0 ∧
    State.reset.status = .running ∧ State.reset.mem = [] := by decide
/-- V-CTL-2 with CLEAR_SET empty, V-CTL-3, V-CTL-4 with START_FLAG = LOADING and V-CTL-8. -/
theorem test_control :
    (State.reset.clear []).halted = false ∧ (State.reset.clear []).powered = true ∧ State.reset.load.loading = true ∧
    ((State.reset.load.setPi 9).start 0x80 .loading).ms = 0x80 ∧ ((State.reset.load.setPi 9).start 0x80 .loading).loading = false ∧
    ((State.reset.load.setPi 9).start 0x80 .loading).pi = 9 := by decide
/-- V-CTL-5 and V-CTL-7. -/
theorem test_program_load : (State.reset.programLoad [0xAB, 0xCD] 2).mem = [(0, 0xAB), (1, 0xCD)] ∧ (State.reset.programLoad [0xAB] 0).mem = [] := by decide
/-- V-CTL-6: the loader truncates at 129 bytes. -/
theorem test_program_load_limit : (loadBytes [] 200 0).length = 129 ∧ (loadBytes [] 128 0).length = 128 := by
  simp [loadBytes, Config.loadMax]
/-- A command placed for the next step runs in it: SET CNZ from creation, at P0 of MS = 0x00. -/
theorem test_with_fetch_word :
    nextOf (step (State.reset.withFetchWord 32 0x30000017)) (fun t => (t.cnz, t.pi.val)) = some (true, 1) := by decide

/-! ## Witnesses: the premises of the statements are met -/

/-- A dispatch in progress from a state, with given knot values. -/
def dispatching (k : Knots) (s : State) : State := s.setDisp (some ⟨s.toArch, k⟩)

/-- DecodeOfEncode: a full, a one-bit and a 7-bit mask, and a sparse OT.NI. -/
theorem witness_DecodeOfEncode :
    Instr.wf (.itNo .pa 0xFFFF) = true ∧ Instr.wf (.itCn .ms 0x0080) = true ∧ Instr.wf (.itNi .cfb 0x007F) = true ∧
    Instr.wf (.otNi ⟨none, none, none, some .cn⟩) = true ∧ Instr.wf (.togf (.cfb 6)) = true := by decide

/-- EncodeOfDecode. -/
theorem witness_EncodeOfDecode : decode 0x22000FF7 = .ok (.otNi ⟨some .zero, some .rrLow, some .zero, some .zero⟩) := by decide

/-- WorkedEncodings: a table that defines G3. -/
theorem witness_WorkedEncodings : guardOfId [(3, .all [⟨false, 0x84⟩])] 3 = .ok (.all [⟨false, .jcv⟩]) := by decide

/-- NoKnotBySelection: every id 0 to 9 is held by some state. -/
theorem witness_NoKnotBySelection :
    ∀ n, n < 10 → ∃ src ∈ NoSrc.list, (withRegs fun r => { r with nosel := src }).nosel.id = BitVec.ofNat 4 n := by decide

/-- CountingNetwork: DO = 0xFFFF with CNZ set and clear, and a word of its second half. -/
theorem witness_CountingNetwork :
    (withRegs fun r => { r with dO := 0xFFFF, cnz := true }).cnz = true ∧ (withRegs fun r => { r with dO := 0xFFFF }).cnz = false ∧
    (0x23000000 : CmdWord).extractLsb' 28 4 = 2 ∧ (0x23000000 : CmdWord).extractLsb' 24 4 = 3 := by decide

/-- NiKnotAllOrNothing: all four CN, and each selection in some quartet beside one that is not CN. -/
theorem witness_NiKnotAllOrNothing :
    (∀ q, quartet State.reset.nisel q = .cn) ∧ (∃ q, quartet (⟨.rrLow, .rrHigh, .zero, .cn⟩ : Quartets NiSel) q ≠ .cn) ∧
    quartet (⟨.rrLow, .rrHigh, .zero, .cn⟩ : Quartets NiSel) 3 = .cn := by decide

/-- NaKnotInputs: a word of its second half. -/
theorem witness_NaKnotInputs : (0x21000000 : CmdWord).extractLsb' 28 4 = 2 ∧ (0x21000000 : CmdWord).extractLsb' 24 4 = 1 := by decide

/-- JumpReadsOneCondition, with the example JTAB: a pattern that fits, no pattern that fits, each
satellite, and no jump code. -/
theorem witness_JumpReadsOneCondition :
    let t := exampleCodes
    (∃ p, p ∈ [t.p0, t.p1, t.p2, t.p3] ∧ (jumpRegs 0x40 0x35 0 0).fc = t.jop ∧ p.fits (jumpRegs 0x40 0x35 0 0).sb = true) ∧
    ((jumpRegs 0x40 0x45 0 0).fc = t.jop ∧ ∀ p, p ∈ [t.p0, t.p1, t.p2, t.p3] → p.fits (jumpRegs 0x40 0x45 0 0).sb = false) ∧
    (jumpRegs 0x41 0 0 0).fc = t.sop1 ∧ (jumpRegs 0x42 0 0 0).fc = t.sop2 ∧
    ((jumpRegs 0x43 0 0 0).fc ≠ t.jop ∧ (jumpRegs 0x43 0 0 0).fc ≠ t.sop1 ∧ (jumpRegs 0x43 0 0 0).fc ≠ t.sop2) := by decide

/-- CommandSources: a state in a dispatch and one outside. -/
theorem witness_CommandSources :
    (dispatching zeroK State.reset).disp = some ⟨State.reset.toArch, zeroK⟩ ∧ State.reset.disp = none := ⟨rfl, rfl⟩

/-- SelectNiSources: a quartet in QEN and one that is not. -/
theorem witness_SelectNiSources :
    quartet (⟨some .zero, none, none, none⟩ : Quartets (Option NiSel)) 0 = some .zero ∧
    quartet (⟨some .zero, none, none, none⟩ : Quartets (Option NiSel)) 3 = none := by decide

/-- CommandsKeepTheRest: a command that is not MW. -/
theorem witness_CommandsKeepTheRest : ∃ t, exec .mr State.reset = .next t ∧ Instr.mr ≠ .mw := ⟨_, rfl, by decide⟩

/-- OnlyTransfersIntoMsMoveIt: a command that moves MS. -/
theorem witness_OnlyTransfersIntoMsMoveIt :
    nextOf (exec (.itNo .ms 0x0001) (withRegs fun r => { r with pa := 0x0001 })) (·.ms) = some 0x01 := by decide

/-- CommandWritesItsLocations: a command in a dispatch, a location it writes (the last byte of memory)
and one it does not. -/
theorem witness_CommandWritesItsLocations :
    let k := { zeroK with no := 0xFFFF }
    (dispatching k State.reset).disp = some ⟨State.reset.toArch, k⟩ ∧ (∃ t, exec .mw (dispatching k State.reset) = .next t) ∧
    commandWrites k .mw (.byte 0xFFFF) = true ∧ commandWrites k .mw (.byte 0x0000) = false :=
  ⟨rfl, ⟨_, rfl⟩, by decide, by decide⟩

/-- IndependentOrLaterWins: two transfers with no bit in common, and a bit that two transfers share. -/
theorem witness_IndependentOrLaterWins :
    (∃ u v, exec (.itNo .dO 0x00FF) (dispatching zeroK State.reset) = .next u ∧ exec (.itCn .dO 0xFF00) (dispatching zeroK State.reset) = .next v) ∧
    (∀ j : Fin 16, ¬ (commandWrites zeroK (.itNo .dO 0x00FF) (.bit .dO j) = true ∧ commandWrites zeroK (.itCn .dO 0xFF00) (.bit .dO j) = true)) ∧
    commandWrites zeroK (.itNo .dO 0x00FF) (.bit .dO 7) = true ∧ commandWrites zeroK (.itCn .dO 0xFFFF) (.bit .dO 7) = true :=
  ⟨⟨_, _, rfl, rfl⟩, by decide, by decide, by decide⟩

/-- LastWriterDecides: a list in which an earlier and a later command write CNZ, and a location none
writes. -/
theorem witness_LastWriterDecides :
    (∃ t, runCommands [.setf .cnz, .clrf .cnz, .mr] (dispatching zeroK State.reset) = .next t) ∧
    commandWrites zeroK (.clrf .cnz) (.flag .cnz) = true ∧ commandWrites zeroK .mr (.flag .cnz) = false ∧
    (∀ i, i ∈ [Instr.setf .cnz, .clrf .cnz, .mr] → commandWrites zeroK i .nosel = false) :=
  ⟨⟨_, rfl⟩, by decide, by decide, by decide⟩

/-- TogglesReadTheSnapshot, LatchesSwapTheGroups, ReadSeesTheOldByte and SelectionSeenNextPulse: a state
in a dispatch. -/
theorem witness_dispatch_open : ∃ c, (dispatching zeroK State.reset).disp = some c := ⟨_, rfl⟩

/-- UnselectedEntriesDoNothing: an entry of another position, and one whose guard is false; a reserved id
of each range, at its ends. -/
theorem witness_UnselectedEntriesDoNothing :
    (19 : Fin 20) ≠ State.reset.pi ∧ guardHolds (.all [⟨true, .jcv⟩]) State.reset.toArch zeroK = false ∧
    (∀ b, b ∈ [(0x28 : Byte), 0x3F] → 0x28 ≤ b.toNat ∧ b.toNat ≤ 0x3F) ∧ (∀ b, b ∈ [(0x85 : Byte), 0xFF] → 0x85 ≤ b.toNat) := by decide

/-- LatchConvention, in each direction: a chart with the latch at P5 and, beside it, a command on the
group the latch copies. -/
theorem witness_LatchConvention (dir : LatchDir) :
    LatchesAt dir 5 [⟨5, .all [], .itNo dir.source 0x0001⟩, ⟨5, .all [], dir.command⟩] ∧
    ∃ t, dispatch [⟨5, .all [], .itNo dir.source 0x0001⟩, ⟨5, .all [], dir.command⟩] zeroK (State.reset.setPi 5) = .next t := by
  refine ⟨⟨[⟨5, .all [], .itNo dir.source 0x0001⟩], [], rfl, fun e he _ k j => ?_⟩, ?_⟩
  · simp only [List.append_nil, List.mem_singleton] at he
    subst he
    cases dir <;> rfl
  · obtain ⟨t, ht, _⟩ := dispatch_next [⟨5, .all [], .itNo dir.source 0x0001⟩, ⟨5, .all [], dir.command⟩] zeroK (State.reset.setPi 5)
    exact ⟨_, ht⟩

/-- StepRunsTheDecodedCommand, at P0 and at P19: an MR alone in the chart of MS = 0x20. -/
theorem witness_StepRunsTheDecodedCommand :
    (ReadyAlone (running 0 [0x7000000000000000] id) [(0x20, [⟨0, .all [], .mr⟩])] ∧
      (running 0 [0x7000000000000000] id).charts.lookup 0x20 = some [0x7000000000000000] ∧
      decodeEntry [] 0x7000000000000000 = .ok ⟨0, .all [], .mr⟩) ∧
    (ReadyAlone (running 19 [0x7000000000000013] id) [(0x20, [⟨19, .all [], .mr⟩])] ∧
      (running 19 [0x7000000000000013] id).charts.lookup 0x20 = some [0x7000000000000013] ∧
      decodeEntry [] 0x7000000000000013 = .ok ⟨19, .all [], .mr⟩) ∧
    ∀ (a : Arch) (k : Knots), guardHolds (.all []) a k = true :=
  ⟨⟨⟨rfl, rfl, rfl, rfl, rfl⟩, rfl, rfl⟩, ⟨⟨rfl, rfl, rfl, rfl, rfl⟩, rfl, rfl⟩, fun _ _ => rfl⟩

/-- SnapshotAtCycleStart: a pulse at P0 and one at P7. -/
theorem witness_SnapshotAtCycleStart :
    (ReadyAlone (running 0 [] id) [(0x20, [])] ∧ nextOf (step (running 0 [] id)) (fun t => t.pi.val) = some 1) ∧
    (ReadyAlone (running 7 [] id) [(0x20, [])] ∧ nextOf (step (running 7 [] id)) (fun t => t.pi.val) = some 8) :=
  ⟨⟨⟨rfl, rfl, rfl, rfl, rfl⟩, rfl⟩, ⟨⟨rfl, rfl, rfl, rfl, rfl⟩, rfl⟩⟩

/-- PulseIndexAdvances: a pulse that advances, and one that wraps. -/
theorem witness_PulseIndexAdvances :
    nextOf (advancePulse testHooks (running 0 goChart id)) (fun t => t.pi.val) = some 1 ∧
    nextOf (advancePulse testHooks (running 19 goChart fun r => { r with pa := 0x0021 })) (fun t => t.pi.val) = some 0 := by decide

/-- MissingChartIsFatal: MS = 0x77 without a chart, at P19. -/
theorem witness_MissingChartIsFatal :
    ReadyAlone (running 19 [] fun r => { r with ms := 0x77 }) [(0x20, [])] ∧
    (running 19 [] fun r => { r with ms := 0x77 }).charts.lookup 0x77 = none := ⟨⟨rfl, rfl, rfl, rfl, rfl⟩, rfl⟩

/-- StallCheckAtCycleEnd: a dispatch at P19 after which MS is PMS, and one after which it is not. -/
theorem witness_StallCheckAtCycleEnd :
    ReadyAlone (running 19 [] id) [(0x20, [])] ∧
    (∃ u, dispatch [] (knotsOf (running 19 [] id).toArch) (running 19 [] id) = .next u ∧ u.ms = u.pms) ∧
    ReadyAlone (running 19 [] fun r => { r with pms := 0x21 }) [(0x20, [])] ∧
    (∃ u, dispatch [] (knotsOf (running 19 [] fun r => { r with pms := 0x21 }).toArch) (running 19 [] fun r => { r with pms := 0x21 }) = .next u ∧ u.ms ≠ u.pms) :=
  ⟨⟨rfl, rfl, rfl, rfl, rfl⟩, ⟨_, rfl, rfl⟩, ⟨rfl, rfl, rfl, rfl, rfl⟩, ⟨_, rfl, by decide⟩⟩

/-- StallOnlyAtLastPulse and FatalErrorReport: each of the three faults. -/
theorem witness_faults :
    (∃ m p t, advancePulse testHooks (running 19 [] id) = .fault (.stall m p t)) ∧
    (∃ m p t, advancePulse testHooks { running 0 [] id with charts := [] } = .fault (.chartMissing m p t)) ∧
    (∃ e m p t, advancePulse testHooks { running 0 [] id with hooks := [1] } = .fault (.peripheralFailure e m p t)) :=
  ⟨⟨_, _, _, rfl⟩, ⟨_, _, _, rfl⟩, ⟨_, _, _, _, rfl⟩⟩

/-- OrderOfChecks: a failing on-clock hook; on-clock hooks that succeed with no chart; a chart and a
failing on-pulse hook. -/
theorem witness_OrderOfChecks :
    (∃ t e, clockHooks testHooks (State.beginCycle { running 0 [] id with hooks := [1] }) = (t, some e)) ∧
    (∃ t, clockHooks pulseHooks (State.beginCycle { running 0 [] id with charts := [], hooks := [1] }) = (t, none) ∧
      List.lookup t.ms ([] : ChartTable) = none) ∧
    (∃ t u e, clockHooks pulseHooks (State.beginCycle { running 0 [] id with hooks := [1] }) = (t, none) ∧
      runHooks pulseHooks.onPulse t.hooks t = (u, some e)) ∧
    register [] (running 0 [] id).charts = .ok [(0x20, [])] ∧ register [] [] = .ok [] :=
  ⟨⟨_, _, rfl⟩, ⟨_, rfl, rfl⟩, ⟨_, _, _, rfl, rfl⟩, rfl, rfl⟩

/-- FirstHookErrorEndsTheRound: hook 2 succeeds, hook 1 errs, hook 2 is registered again. -/
theorem witness_FirstHookErrorEndsTheRound :
    ∃ (s : State) (eff : HookEffect), s.status = .running ∧ register s.guards s.charts = .ok [(0x20, [])] ∧ s.pi = 0 ∧ s.hooks = [2, 1, 2] ∧
      testHooks.onClock 2 s.seq s.beginCycle.toArch = .ok eff ∧
      testHooks.onClock 1 (s.seq + 1) (s.beginCycle.afterHook eff).toArch = .err 7 :=
  ⟨{ running 0 [] id with hooks := [2, 1, 2] }, _, rfl, rfl, rfl, rfl, rfl, rfl⟩

/-- HookKnotSkew: a round that writes the register a knot reads. -/
theorem witness_HookKnotSkew : ∃ t, runHooks pulseHooks.onPulse [2, 3] { running 3 [] id with hooks := [2, 3] } = (t, none) := ⟨_, rfl⟩

/-- FailedEngineIsRefused and FailureIsSticky: a failed state, and a control action that still has a next
state there. -/
theorem witness_failed :
    ((running 7 [] id).setStatus (.failed .stall)).status = .failed .stall ∧
    nextOf (step (((running 7 [] id).setStatus (.failed .stall)).setCalls [.load])) (·.loading) = some true := by decide

/-- A setup on ill-formed tables is refused before any on_setup hook runs (R353): hook 1 would err. -/
theorem test_setup_checks_tables :
    (match hostSetup testHooks { running 0 [0x0000000000000000] id with hooks := [1] } with
     | .refused r => some r
     | .next _ => none
     | .fault _ => none) = some (.illFormedConfiguration .reservedClass) := by decide

/-- IllFormedTablesHaveNoRun: a chart with an illegal word; that word after a legal one, in the second
chart; a reserved signal id; and tables that pass. -/
theorem witness_IllFormedTablesHaveNoRun :
    (running 0 [0x0000000000000000] id).status = .running ∧
    register (running 0 [0x0000000000000000] id).guards (running 0 [0x0000000000000000] id).charts = .error .reservedClass ∧
    (0x21, [0x7000000000000000, 0x0000000000000000]) ∈ [((0x20 : Byte), ([] : List EntryWord)), (0x21, [0x7000000000000000, 0x0000000000000000])] ∧
    decodeEntry [] 0x0000000000000000 = .error .reservedClass ∧
    (1, GuardDef.all [⟨true, 0x80⟩, ⟨false, 0x85⟩]) ∈ [((1 : Byte), GuardDef.all [⟨true, 0x80⟩, ⟨false, 0x85⟩])] ∧ Signal.ofId 0x85 = none ∧
    register [(1, .all [⟨true, 0x80⟩])] [(0x20, []), (0x21, [0x7000000000000113])] =
      .ok [(0x20, []), (0x21, [⟨19, .all [⟨true, .ch1a⟩], .mr⟩])] := by decide

/-- TablesAreFixed: a step with a next state and one with a fault. -/
theorem witness_TablesAreFixed : (∃ t, step (running 0 goChart id) = .next t) ∧ (∃ f, step (running 19 [] id) = .fault f) :=
  ⟨⟨_, rfl⟩, ⟨_, rfl⟩⟩

/-- CycleVisitsEveryPulseOnce and SuccessfulCycleMovesMs: the cycle of V-SEQ-7's chart from P0. -/
theorem witness_cycle :
    (running 0 goChart fun r => { r with pa := 0x0021 }).pi = 0 ∧ (running 0 goChart fun r => { r with pa := 0x0021 }).hooks = [] ∧
    nextOf (runCycle testHooks (running 0 goChart fun r => { r with pa := 0x0021 })) (fun t => (t.ms, t.pi.val)) = some (0x21, 0) := by decide

/-- CycleWithoutMsWriteStalls: a chart of one flag command. -/
theorem witness_CycleWithoutMsWriteStalls :
    ReadyAlone (running 0 [0x3000001700000013] id) [(0x20, [⟨19, .all [], .setf .cnz⟩])] ∧
    List.lookup (running 0 [0x3000001700000013] id).ms [(0x20, [(⟨19, .all [], .setf .cnz⟩ : Entry)])] = some [⟨19, .all [], .setf .cnz⟩] ∧
    NeverWritesMs [(0x20, [⟨19, .all [], .setf .cnz⟩])] := by
  refine ⟨⟨rfl, rfl, rfl, rfl, rfl⟩, rfl, fun ms chart e hc he k j => ?_⟩
  simp only [List.mem_singleton, Prod.mk.injEq] at hc
  obtain ⟨-, rfl⟩ := hc
  simp only [List.mem_singleton] at he
  subst he
  rfl

/-- StepKeepsTheInvariant: a state with the invariant, a byte in memory, and a next state. -/
theorem witness_StepKeepsTheInvariant :
    Inv ((running 0 goChart id).setMem [(0xFFFF, 0x01)]) ∧ (∃ t, step ((running 0 goChart id).setMem [(0xFFFF, 0x01)]) = .next t) :=
  ⟨⟨by decide, fun i _ => BitVec.getLsbD_zero, fun i _ => BitVec.getLsbD_zero, rfl⟩, ⟨_, rfl⟩⟩

/-- HostCallsBetweenPulses: a call waiting, and none. -/
theorem witness_HostCallsBetweenPulses :
    (State.reset.setCalls [.clear, .load]).calls = .clear :: [.load] ∧ State.reset.calls = [] := by decide

/-- StartAction: there is a flag that is not START_FLAG, whichever that is. -/
theorem witness_StartAction : ∃ f, f ≠ Config.startFlag := by
  by_cases h : Flag.powered = Config.startFlag
  · exact ⟨.halted, by rw [← h]; decide⟩
  · exact ⟨.powered, h⟩

/-- ProgramLoadCopiesTheBuffer: the last address copied and the first one kept, with n above the limit. -/
theorem witness_ProgramLoadCopiesTheBuffer :
    (128#16).toNat < min 200 129 ∧ (List.replicate 200 (0x5A : Byte))[(128#16).toNat]? = some 0x5A ∧ min 200 129 ≤ (129#16).toNat := by decide

/-- SetupAndTeardown: a setup round that errs and one that does not. -/
theorem witness_SetupAndTeardown :
    (∃ s t e, s.status = .running ∧ register s.guards s.charts = .ok [(0x20, [])] ∧ s.hooks = [2, 1] ∧
      runHooks testHooks.onSetup s.hooks s = (t, some e)) ∧
    (∃ s t, s.status = .running ∧ register s.guards s.charts = .ok [(0x20, [])] ∧ s.hooks = [2] ∧
      runHooks testHooks.onSetup s.hooks s = (t, none)) :=
  ⟨⟨{ running 0 [] id with hooks := [2, 1] }, _, _, rfl, rfl, rfl, rfl⟩, ⟨{ running 0 [] id with hooks := [2] }, _, rfl, rfl, rfl, rfl⟩⟩

end Sys2Proof.Machine.Tests
end

section
/-!
The invariant of the state and the parts no step writes (spec file 10): what one command can do, what
the registration check makes of a chart, and what is kept by every operation a step is made of.
-/

namespace Sys2Proof.Machine

/-! ## What one command can do -/

/-- Everything a command does to the state being built (R179, R181): one transfer, one write of a flag
that a well-formed command names legally, a change of the knot selections, or, for MW alone, one byte of
memory. -/
theorem exec_cases {i : Instr} {s t : State} (h : exec i s = .next t) :
    (∃ d m v, t = s.transfer d m v) ∨
    (∃ f b, (i.wf = true → f.legal = true) ∧ t = s.putFlag f b) ∨
    (∃ no ni, t = s.setRegs { s.toRegs with nosel := no, nisel := ni }) ∨
    (i = .mw ∧ ∃ a v, t = s.setMem (s.mem.write a v)) := by
  have moved {u : State} (hu : exec i s = .next u) : t = u := Host.Outcome.next.inj (h.symm.trans hu)
  cases i with
  | itNo d m | itNa d m | itNi d m | itCn d m => exact .inl ⟨d, m, _, moved rfl⟩
  | latchAB | latchBA | mr => exact .inl ⟨_, _, _, moved rfl⟩
  | setf f | clrf f | togf f => exact .inr (.inl ⟨f, _, id, moved rfl⟩)
  | otNo src => exact .inr (.inr (.inl ⟨src, s.nisel, moved rfl⟩))
  | otNi sel => exact .inr (.inr (.inl ⟨s.nosel, updateSel s.nisel sel, moved rfl⟩))
  | mw => exact .inr (.inr (.inr ⟨rfl, _, _, moved rfl⟩))

theorem SameOutside.refl (s : State) : SameOutside s s :=
  ⟨rfl, rfl, rfl, ⟨rfl, rfl⟩, ⟨rfl, rfl, rfl⟩, rfl, rfl, rfl⟩

theorem SameTables.trans {s t u : State} (a : SameTables s t) (b : SameTables t u) : SameTables s u :=
  ⟨b.1.trans a.1, b.2.1.trans a.2.1, b.2.2.trans a.2.2⟩

/-- New registers that keep PMS and the console inputs leave what no command writes. -/
theorem setRegs_sameOutside {s : State} {r : Regs} (hp : r.pms = s.pms) (hsel : r.consel = s.consel)
    (hsw : r.consw = s.consw) : SameOutside s (s.setRegs r) :=
  ⟨hp, rfl, rfl, ⟨hsel, hsw⟩, ⟨rfl, rfl, rfl⟩, rfl, rfl, rfl⟩

/-- No command writes PMS, PI, STATUS, the console inputs or the tables (R31, R32, R57, R284). -/
theorem exec_sameOutside {i : Instr} {s t : State} (h : exec i s = .next t) : SameOutside s t := by
  obtain ⟨d, m, v, rfl⟩ | ⟨f, b, -, rfl⟩ | ⟨no, ni, rfl⟩ | ⟨-, a, v, rfl⟩ := exec_cases h
  · obtain ⟨hp, -, -, hsel, hsw, -, -⟩ := Regs.writeDest_rest s.toRegs d m v
    exact setRegs_sameOutside hp hsel hsw
  · obtain ⟨hp, -, -, hsel, hsw, -⟩ := Regs.writeFlag_rest s.toRegs f b
    exact setRegs_sameOutside hp hsel hsw
  · exact setRegs_sameOutside rfl rfl rfl
  · exact SameOutside.refl s

/-- Only MW writes memory (R84). -/
theorem exec_mem {i : Instr} {s t : State} (h : exec i s = .next t) (hi : i ≠ .mw) : t.mem = s.mem := by
  obtain ⟨d, m, v, rfl⟩ | ⟨f, b, -, rfl⟩ | ⟨no, ni, rfl⟩ | ⟨hmw, -⟩ := exec_cases h
  · rfl
  · rfl
  · rfl
  · exact absurd hmw hi

/-- Settles O23: each kind of effect a command can have leaves them. -/
theorem commandsKeepTheRest : Obligations.CommandsKeepTheRest :=
  fun _ _ _ h => ⟨exec_sameOutside h, exec_mem h⟩

/-- A property that each command of a list keeps holds after the list if it held before. -/
theorem runCommands_induct {P : State → Prop} {is : List Instr}
    (hexec : ∀ i ∈ is, ∀ s t, P s → exec i s = .next t → P t) {s t : State} (h0 : P s)
    (h : runCommands is s = .next t) : P t := by
  induction is generalizing s with
  | nil => exact Host.Outcome.next.inj h ▸ h0
  | cons i is ih =>
    obtain ⟨u, hu⟩ := exec_next i s
    rw [runCommands_cons, hu] at h
    exact ih (fun j hj => hexec j (List.mem_cons_of_mem i hj)) (hexec i List.mem_cons_self s u h0 hu) h

/-- The commands a pulse selects are commands of the chart (R177). -/
theorem exists_entry_of_mem_selected {chart : List Entry} {p : Fin 20} {s0 : Arch} {k : Knots} {i : Instr}
    (h : i ∈ selected chart p s0 k) : ∃ e ∈ chart, e.cmd = i := by
  obtain ⟨e, he, hi⟩ := List.mem_map.mp h
  exact ⟨e, (List.mem_filter.mp he).1, hi⟩

/-- A property that the commands of a chart keep, and that does not depend on the dispatch context,
holds after a dispatch if it held before (R183). -/
theorem dispatch_induct {P : State → Prop} {chart : List Entry}
    (hdisp : ∀ d s, P s → P (s.setDisp d)) (hexec : ∀ e ∈ chart, ∀ s t, P s → exec e.cmd s = .next t → P t)
    {k : Knots} {s t : State} (h0 : P s) (h : dispatch chart k s = .next t) : P t ∧ t.disp = none := by
  obtain ⟨u, hu, hrun⟩ := dispatch_next chart k s
  obtain rfl : t = u.setDisp none := Host.Outcome.next.inj (h.symm.trans hu)
  refine ⟨hdisp none u (runCommands_induct (fun i hi => ?_) (hdisp _ s h0) hrun), rfl⟩
  obtain ⟨e, he, rfl⟩ := exists_entry_of_mem_selected hi
  exact hexec e he

/-! ## The commands of a registered chart are well-formed -/

theorem decodeTransfer_wf {mk : Dest → Word → Instr} (hmk : ∀ d m, (mk d m).wf = maskLegal d.width m)
    {c : CmdWord} {i : Instr} (h : decodeTransfer mk c = .ok i) : i.wf = true := by
  unfold decodeTransfer at h
  split at h
  · cases h
  · split at h
    · rename_i hm
      cases h
      rw [hmk]
      exact hm
    · cases h

theorem decodeIT_wf {c : CmdWord} {i : Instr} (h : decodeIT c = .ok i) : i.wf = true := by
  unfold decodeIT at h
  split at h
  · exact decodeTransfer_wf (fun _ _ => rfl) h
  · exact decodeTransfer_wf (fun _ _ => rfl) h
  · exact decodeTransfer_wf (fun _ _ => rfl) h
  · exact decodeTransfer_wf (fun _ _ => rfl) h
  · cases h

/-- A quartet is selected exactly when its bit of QEN is set (R109). -/
theorem decodeQuartet_isSome {c : CmdWord} {q : Nat} {x : Option NiSel} (h : decodeQuartet c q = some x) :
    x.isSome = c.getLsbD (8 + q) := by
  unfold decodeQuartet at h
  split at h
  · rename_i hq
    cases h
    exact hq.symm
  · rename_i hq
    split at h
    · cases h
      simpa using hq
    · cases h

/-- A QEN field that is not 0 has one of its four bits set. -/
theorem exists_quartet_of_qen_ne_zero {c : CmdWord} (h : c.extractLsb' 8 4 ≠ 0) :
    ∃ q : Fin 4, c.getLsbD (8 + q.val) = true := by
  by_contra hno
  refine h (BitVec.eq_of_getLsbD_eq fun j hj => ?_)
  have := not_exists.mp hno ⟨j, hj⟩
  simpa [BitVec.getLsbD_extractLsb', hj, -BitVec.getLsbD_eq_getElem] using this

theorem decodeOtNi_wf {c : CmdWord} {i : Instr} (h : decodeOtNi c = .ok i) : i.wf = true := by
  unfold decodeOtNi at h
  split at h
  · cases h
  · split at h
    · cases h
    · rename_i hqen
      split at h
      · rename_i a b d e ha hb hd he
        cases h
        obtain ⟨q, hq⟩ := exists_quartet_of_qen_ne_zero hqen
        simp only [Instr.wf, Quartets.someSet, decodeQuartet_isSome ha, decodeQuartet_isSome hb,
          decodeQuartet_isSome hd, decodeQuartet_isSome he]
        fin_cases q <;> simp_all
      · cases h

theorem decodeOT_wf {c : CmdWord} {i : Instr} (h : decodeOT c = .ok i) : i.wf = true := by
  unfold decodeOT at h
  split at h
  · unfold decodeOtNo at h
    split at h
    · cases h
    · split at h
      · cases h
      · cases h
        rfl
  · exact decodeOtNi_wf h
  · cases h

theorem Flag.legal_of_ofLegalId {b : Byte} {f : Flag} (h : Flag.ofLegalId b = some f) : f.legal = true := by
  unfold Flag.ofLegalId at h
  split at h
  · split at h
    · rename_i hl
      cases h
      exact hl
    · cases h
  · cases h

theorem decodeFlagCmd_wf {mk : Flag → Instr} (hmk : ∀ f, (mk f).wf = f.legal) {c : CmdWord} {i : Instr}
    (h : decodeFlagCmd mk c = .ok i) : i.wf = true := by
  unfold decodeFlagCmd at h
  split at h
  · cases h
  · split at h
    · cases h
    · rename_i f hf
      cases h
      rw [hmk]
      exact Flag.legal_of_ofLegalId hf

theorem decodeLatch_wf {c : CmdWord} {i : Instr} (h : decodeLatch c = .ok i) : i.wf = true := by
  unfold decodeLatch at h
  split at h
  · cases h
  · split at h <;> cases h <;> rfl

theorem decodeMemory_wf {j : Instr} (hj : j.wf = true) {c : CmdWord} {i : Instr}
    (h : decodeMemory j c = .ok i) : i.wf = true := by
  unfold decodeMemory at h
  split at h
  · cases h
  · cases h
    exact hj

/-- A word that decodes is a command that has an encoding (R117). -/
theorem decode_wf {c : CmdWord} {i : Instr} (h : decode c = .ok i) : i.wf = true := by
  unfold decode at h
  split at h
  · exact decodeIT_wf h
  · exact decodeOT_wf h
  · exact decodeFlagCmd_wf (fun _ => rfl) h
  · exact decodeFlagCmd_wf (fun _ => rfl) h
  · exact decodeFlagCmd_wf (fun _ => rfl) h
  · exact decodeLatch_wf h
  · exact decodeMemory_wf rfl h
  · exact decodeMemory_wf rfl h
  · cases h

theorem decodeEntry_cmd_wf {gs : GuardTable} {w : EntryWord} {e : Entry} (h : decodeEntry gs w = .ok e) :
    e.cmd.wf = true := by
  unfold decodeEntry at h
  split at h
  · cases h
  · split at h
    · split at h
      · cases h
      · split at h
        · cases h
        · rename_i hi
          cases h
          exact decode_wf hi
    · cases h

theorem decodeChart_cmd_wf {gs : GuardTable} {ws : List EntryWord} {es : List Entry}
    (h : decodeChart gs ws = .ok es) : ∀ e ∈ es, e.cmd.wf = true := by
  have hall := decodeChart_ok_iff.mp h
  clear h
  induction hall with
  | nil => exact List.forall_mem_nil _
  | cons hw _ ih => exact List.forall_mem_cons.mpr ⟨decodeEntry_cmd_wf hw, ih⟩

/-- Every command of a chart the engine looks up is well-formed (R182). -/
theorem registered_chart_wf {gs : GuardTable} {cs : RawCharts} {table : ChartTable} {ms : Byte}
    {chart : List Entry} (hreg : register gs cs = .ok table) (hlook : table.lookup ms = some chart) :
    ∀ e ∈ chart, e.cmd.wf = true := by
  obtain ⟨hnone, hsome⟩ := decodeCharts_lookup (register_charts hreg) ms
  cases hraw : cs.lookup ms with
  | none =>
    rw [hnone.mp hraw] at hlook
    cases hlook
  | some ws =>
    obtain ⟨es, hdec, hes⟩ := hsome ws hraw
    obtain rfl : es = chart := Option.some.inj (hes.symm.trans hlook)
    exact decodeChart_cmd_wf hdec

/-! ## A property that every operation of a step keeps -/

/-- A property holds of the state an outcome leaves: the next state, or the state a fault carries. -/
def OutcomeHolds (P : State → Prop) (o : Host.Outcome State Fault Refusal) : Prop :=
  (∀ t, o = .next t → P t) ∧ (∀ f, o = .fault f → P f.state)

theorem outcomeHolds_next {P : State → Prop} {s : State} (h : P s) : OutcomeHolds P (.next s) :=
  ⟨fun _ e => Host.Outcome.next.inj e ▸ h, fun _ e => by cases e⟩

theorem outcomeHolds_refused {P : State → Prop} (r : Refusal) : OutcomeHolds P (.refused r) :=
  ⟨fun _ e => (by cases e), fun _ e => (by cases e)⟩

theorem outcomeHolds_raiseFatal {P : State → Prop} {k : FailureKind} {s : State} (h : P (s.failed k)) :
    OutcomeHolds P (raiseFatal k s) := by
  obtain ⟨f, hf, hstate⟩ := raiseFatal_inv (k := k) (s := s) rfl
  refine ⟨fun t ht => absurd ht (raiseFatal_ne_next k s t), fun g hg => ?_⟩
  obtain rfl : f = g := Host.Outcome.fault.inj (hf.symm.trans hg)
  exact hstate ▸ h

/-- A property that every operation a step is made of keeps: those of a pulse (file 40), of a hook round
(R322) and of the host (file 46). -/
structure StepClosed (P : State → Prop) : Prop where
  setCalls : ∀ c s, P s → P (s.setCalls c)
  tick : ∀ s, P s → P s.tick
  afterHook : ∀ e s, P s → P (s.afterHook e)
  beginCycle : ∀ s, P s → P s.beginCycle
  dispatch : ∀ chart k s t, (∀ e ∈ chart, e.cmd.wf = true) → P s → dispatch chart k s = .next t → P t
  setPi : ∀ p s, P s → P (s.setPi p)
  failed : ∀ k s, P s → P (s.failed k)
  clear : ∀ fs s, P s → P (s.clear fs)
  load : ∀ s, P s → P s.load
  start : ∀ ms f s, P s → P (s.start ms f)
  programLoad : ∀ buf n s, P s → P (s.programLoad buf n)
  consoleWrite : ∀ sel sw s, P s → P (s.consoleWrite sel sw)

namespace StepClosed

variable {P : State → Prop}

theorem runHooks_fst (hP : StepClosed P) (call : Nat → Nat → Arch → HookAnswer) (hs : List Nat) {s : State}
    (h0 : P s) : P (runHooks call hs s).1 := by
  induction hs generalizing s with
  | nil => exact h0
  | cons h rest ih =>
    unfold runHooks
    split
    · exact ih (hP.afterHook _ s h0)
    · exact hP.tick s h0

theorem clockHooks_fst (hP : StepClosed P) (h : HookFns) {s : State} (h0 : P s) : P (clockHooks h s).1 := by
  unfold clockHooks
  split
  · exact hP.runHooks_fst h.onClock s.hooks h0
  · exact h0

theorem endPulse (hP : StepClosed P) {s : State} (h0 : P s) : OutcomeHolds P (endPulse s) := by
  unfold Machine.endPulse
  split
  · exact outcomeHolds_raiseFatal (hP.failed _ s h0)
  · exact outcomeHolds_next (hP.setPi _ s h0)

theorem advancePulse (hP : StepClosed P) (h : HookFns) {s : State} (h0 : P s) :
    OutcomeHolds P (advancePulse h s) := by
  have hclock {t : State} {e : Option Nat} (ht : clockHooks h s.beginCycle = (t, e)) : P t := by
    simpa [ht] using hP.clockHooks_fst h (hP.beginCycle s h0)
  have hpulse {t u : State} {e : Option Nat} (ht : P t) (hu : runHooks h.onPulse t.hooks t = (u, e)) : P u := by
    simpa [hu] using hP.runHooks_fst h.onPulse t.hooks ht
  obtain ⟨r, hr⟩ | ⟨table, t, -, hreg, -, hpulseCases⟩ := advancePulse_cases h s _ rfl
  · rw [hr]
    exact outcomeHolds_refused r
  · obtain ⟨e, ht, ho⟩ | ⟨ht, -, ho⟩ | ⟨chart, u, ht, hlook, -, ⟨e, hu, ho⟩ | ⟨v, hu, hv, ho⟩⟩ := hpulseCases
    · exact ho ▸ outcomeHolds_raiseFatal (hP.failed _ t (hclock ht))
    · exact ho ▸ outcomeHolds_raiseFatal (hP.failed _ t (hclock ht))
    · exact ho ▸ outcomeHolds_raiseFatal (hP.failed _ u (hpulse (hclock ht) hu))
    · exact ho ▸ hP.endPulse
        (hP.dispatch chart _ u v (registered_chart_wf hreg hlook) (hpulse (hclock ht) hu) hv)

theorem hostSetup (hP : StepClosed P) (h : HookFns) {s : State} (h0 : P s) : OutcomeHolds P (hostSetup h s) := by
  have hround := hP.runHooks_fst h.onSetup s.hooks h0
  unfold Machine.hostSetup
  split
  · split
    · exact outcomeHolds_refused _
    · split
      · rename_i t e ht
        rw [ht] at hround
        exact outcomeHolds_raiseFatal (hP.failed _ t hround)
      · rename_i t ht
        rw [ht] at hround
        exact outcomeHolds_next hround
  · exact outcomeHolds_refused _

theorem hostCall (hP : StepClosed P) (h : HookFns) (c : HostCall) {s : State} (h0 : P s) :
    OutcomeHolds P (hostCall h c s) := by
  cases c with
  | advancePulse => exact hP.advancePulse h h0
  | clear => exact outcomeHolds_next (hP.clear _ s h0)
  | load => exact outcomeHolds_next (hP.load s h0)
  | start => exact outcomeHolds_next (hP.start _ _ s h0)
  | programLoad buf n => exact outcomeHolds_next (hP.programLoad buf n s h0)
  | consoleWrite sel sw => exact outcomeHolds_next (hP.consoleWrite sel sw s h0)
  | setup => exact hP.hostSetup h h0
  | teardown => exact outcomeHolds_next (hP.runHooks_fst h.onTeardown s.hooks h0)

/-- Such a property holds after every step from a state that has it. -/
theorem step (hP : StepClosed P) {s : State} (h0 : P s) : OutcomeHolds P (step s) := by
  unfold Machine.step hostTurn
  split
  · exact hP.advancePulse _ h0
  · exact hP.hostCall _ _ (hP.setCalls _ s h0)

end StepClosed

/-! ## The tables -/

/-- Having the tables of a given state is kept by every operation of a step (R57, R59). -/
theorem stepClosed_sameTables (s : State) : StepClosed (SameTables s) where
  setCalls _ _ h := h
  tick _ h := h
  afterHook _ _ h := h
  beginCycle t h :=
    have keep := t.beginCycle_keeps.1
    h.trans ⟨keep.charts, keep.guards, keep.hooks⟩
  dispatch _ _ _ _ _ h hd :=
    (dispatch_induct (P := SameTables s) (fun _ _ h => h)
      (fun _ _ _ _ h he =>
        have ⟨_, _, _, _, tables, _⟩ := exec_sameOutside he
        h.trans tables) h hd).1
  setPi _ _ h := h
  failed _ _ h := h
  clear _ _ h := h
  load _ h := h
  start _ _ _ h := h
  programLoad _ _ _ h := h
  consoleWrite _ _ _ h := h

/-- Settles O48: no operation a step is made of writes CHARTS, GUARDS or HOOKS. -/
theorem tablesAreFixed : Obligations.TablesAreFixed :=
  fun s => (stepClosed_sameTables s).step ⟨rfl, rfl, rfl⟩

/-! ## The invariant -/

/-- The flags the configuration does not have read 0 (R46). -/
def Regs.AbsentFlagsZero (r : Regs) : Prop :=
  (∀ i : Fin 8, Config.nRsb.val ≤ i.val → r.readFlag (.rsb i) = false) ∧
  (∀ i : Fin 64, Config.nXFlags.val ≤ i.val → r.readFlag (.x i) = false)

theorem inv_iff (s : State) : Inv s ↔ (s.mem.wf = true ∧ s.toRegs.AbsentFlagsZero) ∧ s.disp = none :=
  ⟨fun ⟨hmem, hrsb, hx, hdisp⟩ => ⟨⟨hmem, hrsb, hx⟩, hdisp⟩,
   fun ⟨⟨hmem, hrsb, hx⟩, hdisp⟩ => ⟨hmem, hrsb, hx, hdisp⟩⟩

/-- The absent flags are those whose id is not legal (R112). -/
theorem Regs.absentFlagsZero_iff (r : Regs) :
    r.AbsentFlagsZero ↔ ∀ f : Flag, f.legal = false → r.readFlag f = false := by
  constructor
  · rintro ⟨hrsb, hx⟩ f hf
    cases f with
    | rsb i => exact hrsb i (by simpa [Flag.legal] using hf)
    | x i => exact hx i (by simpa [Flag.legal] using hf)
    | _ => cases hf
  · intro h
    exact ⟨fun i hi => h (.rsb i) (by simpa [Flag.legal] using hi),
      fun i hi => h (.x i) (by simpa [Flag.legal] using hi)⟩

/-- Only RSB and X hold flags that may be absent. -/
theorem Regs.AbsentFlagsZero.of_same {r r' : Regs} (h : r.AbsentFlagsZero) (hrsb : r'.rsb = r.rsb)
    (hx : r'.x = r.x) : r'.AbsentFlagsZero := by
  simpa only [Regs.AbsentFlagsZero, Regs.readFlag, hrsb, hx] using h

/-- Writing a flag that exists, or writing 0, keeps the absent flags at 0. -/
theorem Regs.AbsentFlagsZero.writeFlag {r : Regs} (h : r.AbsentFlagsZero) {f : Flag} {b : Bool}
    (hf : f.legal = true ∨ b = false) : (r.writeFlag f b).AbsentFlagsZero := by
  rw [Regs.absentFlagsZero_iff] at h ⊢
  intro g hg
  rw [Regs.readFlag_writeFlag]
  split
  · rename_i hgf
    subst hgf
    exact hf.resolve_left (by simp [hg])
  · exact h g hg

theorem Regs.AbsentFlagsZero.clearFlags {r : Regs} (h : r.AbsentFlagsZero) (fs : List Flag) :
    (Regs.clearFlags fs r).AbsentFlagsZero := by
  rw [Regs.absentFlagsZero_iff] at h ⊢
  intro g hg
  rw [Regs.readFlag_clearFlags, h g hg, ite_self]

/-- A well-formed command keeps the canonical memory and the absent flags at 0. -/
theorem exec_keeps_wf_and_absent {i : Instr} {s t : State} (hi : i.wf = true)
    (h : s.mem.wf = true ∧ s.toRegs.AbsentFlagsZero) (he : exec i s = .next t) :
    t.mem.wf = true ∧ t.toRegs.AbsentFlagsZero := by
  obtain ⟨hmem, habs⟩ := h
  obtain ⟨d, m, v, rfl⟩ | ⟨f, b, hf, rfl⟩ | ⟨no, ni, rfl⟩ | ⟨-, a, v, rfl⟩ := exec_cases he
  · obtain ⟨-, -, -, -, -, hrsb, hx⟩ := Regs.writeDest_rest s.toRegs d m v
    exact ⟨hmem, habs.of_same hrsb hx⟩
  · exact ⟨hmem, habs.writeFlag (.inl (hf hi))⟩
  · exact ⟨hmem, habs.of_same rfl rfl⟩
  · exact ⟨Memory.wf_write a v hmem, habs⟩

theorem Inv.absent {s : State} (h : Inv s) : s.toRegs.AbsentFlagsZero := ⟨h.rsbBits, h.xBits⟩

/-- New registers whose absent flags are 0 keep the invariant. -/
theorem Inv.setRegs {s : State} (h : Inv s) {r : Regs} (hr : r.AbsentFlagsZero) : Inv (s.setRegs r) :=
  ⟨h.memory, hr.1, hr.2, h.noDispatch⟩

theorem Inv.setMem {s : State} (h : Inv s) {m : Memory} (hm : m.wf = true) : Inv (s.setMem m) :=
  ⟨hm, h.rsbBits, h.xBits, h.noDispatch⟩

theorem Inv.putFlag {s : State} (h : Inv s) {f : Flag} {b : Bool} (hf : f.legal = true ∨ b = false) :
    Inv (s.putFlag f b) :=
  h.setRegs (h.absent.writeFlag hf)

/-- The fields the invariant speaks of are all it depends on. -/
theorem Inv.of_same {s t : State} (h : Inv s) (hregs : t.toRegs = s.toRegs) (hmem : t.mem = s.mem)
    (hdisp : t.disp = none) : Inv t := by
  rw [inv_iff] at h ⊢
  exact ⟨hregs ▸ hmem ▸ h.1, hdisp⟩

theorem Inv.beginCycle {s : State} (h : Inv s) : Inv s.beginCycle := by
  obtain ⟨-, hb⟩ | ⟨-, hb⟩ := s.beginCycle_cases
  · rw [hb]
    exact h.setRegs (h.absent.of_same rfl rfl)
  · rw [hb]
    exact h

/-- The invariant is kept by every operation of a step. -/
theorem stepClosed_inv : StepClosed Inv where
  setCalls _ _ h := h.of_same rfl rfl h.noDispatch
  tick _ h := h.of_same rfl rfl h.noDispatch
  afterHook e _ h :=
    ((h.setRegs e.regs.keepExistingFlags_absent).setMem (Memory.wf_writeAll e.memWrites h.memory)).of_same
      rfl rfl h.noDispatch
  beginCycle _ h := h.beginCycle
  dispatch _ _ s t hwf h hd :=
    (inv_iff t).mpr (dispatch_induct (P := fun s => s.mem.wf = true ∧ s.toRegs.AbsentFlagsZero)
      (fun _ _ h => h) (fun e he _ _ => exec_keeps_wf_and_absent (hwf e he)) ((inv_iff s).mp h).1 hd)
  setPi _ _ h := h.of_same rfl rfl h.noDispatch
  failed _ _ h := h.of_same rfl rfl rfl
  clear fs _ h := h.setRegs ((h.absent.clearFlags fs).writeFlag (.inr rfl))
  load _ h := h.putFlag (.inl rfl)
  start ms _ s h :=
    Inv.putFlag (s := s.setRegs { s.toRegs with ms := ms }) (h.setRegs (h.absent.of_same rfl rfl)) (.inr rfl)
  programLoad _ _ _ h := (h.setMem (Memory.wf_writeAll _ h.memory)).of_same rfl rfl h.noDispatch
  consoleWrite _ _ _ h := h.setRegs (h.absent.of_same rfl rfl)

/-- Settles O52: every operation a step is made of keeps the invariant, the registration check having
refused the commands that name an absent flag. -/
theorem stepKeepsTheInvariant : Obligations.StepKeepsTheInvariant :=
  fun _ h => stepClosed_inv.step h

/-- Settles O53: memory is empty, RSB and X are 0, and no dispatch is open. -/
theorem resetHasTheInvariant : Obligations.ResetHasTheInvariant :=
  ⟨Memory.wf_nil, fun _ _ => BitVec.getLsbD_zero, fun _ _ => BitVec.getLsbD_zero, rfl⟩

end Sys2Proof.Machine
end

section
/-!
The fields of a word, the ids of the operands (R105, R108, R109, R112, R113) and the masks (R106): each
reader of an id undoes the table of ids, and refuses exactly the ids the table does not hold.
-/

namespace Sys2Proof

/-! ## A word as the concatenation of its fields -/

/-- A field of a word is a concatenation exactly when its high and its low part are the two halves. -/
theorem extractLsb'_eq_append_iff {w n k : Nat} (s : Nat) (c : BitVec w) (a : BitVec n) (b : BitVec k) :
    c.extractLsb' s (n + k) = a ++ b ↔ c.extractLsb' (s + k) n = a ∧ c.extractLsb' s k = b := by
  rw [← BitVec.extractLsb'_append_extractLsb'_eq_extractLsb' rfl]
  constructor
  · intro h
    have high := congrArg (BitVec.extractLsb' k n) h
    have low := congrArg (BitVec.extractLsb' 0 k) h
    rw [BitVec.extractLsb'_append_eq_left, BitVec.extractLsb'_append_eq_left] at high
    rw [BitVec.extractLsb'_append_eq_right, BitVec.extractLsb'_append_eq_right] at low
    exact ⟨high, low⟩
  · rintro ⟨rfl, rfl⟩
    rfl

/-- A word is a concatenation exactly when its high and its low field are the two halves. -/
theorem append_eq_iff {n k : Nat} (a : BitVec n) (b : BitVec k) (c : BitVec (n + k)) :
    a ++ b = c ↔ c.extractLsb' k n = a ∧ c.extractLsb' 0 k = b := by
  have h := extractLsb'_eq_append_iff 0 c a b
  rw [BitVec.extractLsb'_eq_self, Nat.zero_add] at h
  exact eq_comm.trans h

/-- A field of one bit. -/
theorem extractLsb'_one_eq_ofBool_iff {w : Nat} (c : BitVec w) (s : Nat) (b : Bool) :
    c.extractLsb' s 1 = BitVec.ofBool b ↔ c.getLsbD s = b := by
  rw [BitVec.getLsbD_eq_extractLsb']
  generalize c.extractLsb' s 1 = x
  revert x b
  decide

/-! ## Operand ids -/

@[simp] theorem Dest.ofId_id (d : Dest) : Dest.ofId d.id = some d := by cases d <;> rfl

theorem Dest.ofId_eq_some_iff {b : Byte} {d : Dest} : Dest.ofId b = some d ↔ d.id = b :=
  ⟨fun h => by simpa using List.find?_some h, fun h => h ▸ Dest.ofId_id d⟩

theorem Dest.ofId_eq_none_iff {b : Byte} : Dest.ofId b = none ↔ 0x12 ≤ b.toNat := by
  revert b; decide

@[simp] theorem NoSrc.ofId_id (s : NoSrc) : NoSrc.ofId s.id = some s := by cases s <;> rfl

theorem NoSrc.ofId_eq_some_iff {b : BitVec 4} {s : NoSrc} : NoSrc.ofId b = some s ↔ s.id = b :=
  ⟨fun h => by simpa using List.find?_some h, fun h => h ▸ NoSrc.ofId_id s⟩

theorem NoSrc.ofId_eq_none_iff {b : BitVec 4} : NoSrc.ofId b = none ↔ 10 ≤ b.toNat := by
  revert b; decide

@[simp] theorem NiSel.ofCode_code (s : NiSel) : NiSel.ofCode s.code = s := by cases s <;> rfl

@[simp] theorem NiSel.code_ofCode (b : BitVec 2) : (NiSel.ofCode b).code = b := by
  revert b; decide

theorem Flag.ofId_id (f : Flag) : Flag.ofId f.id = some f := by
  cases f with
  | cfa i | cfb i | rsb i | x i => revert i; decide
  | _ => rfl

/-- The id of a flag that stands at an offset from the first id of its family. -/
theorem ofNat_add_sub_toNat {b : Byte} {k : Nat} (h : k ≤ b.toNat) : BitVec.ofNat 8 (k + (b.toNat - k)) = b := by
  rw [Nat.add_sub_cancel' h, BitVec.ofNat_toNat, BitVec.setWidth_eq]

theorem Flag.id_of_ofId {b : Byte} {f : Flag} (h : Flag.ofId b = some f) : f.id = b := by
  unfold Flag.ofId at h
  split_ifs at h with hcfa hcfb hrsb hx
  · obtain rfl := Option.some.inj h
    simp [Flag.id]
  · obtain rfl := Option.some.inj h
    exact ofNat_add_sub_toNat hcfb.1
  · obtain rfl := Option.some.inj h
    exact ofNat_add_sub_toNat hrsb.1
  · obtain rfl := Option.some.inj h
    exact ofNat_add_sub_toNat hx.1
  · simpa using List.find?_some h

theorem Flag.ofId_eq_some_iff {b : Byte} {f : Flag} : Flag.ofId b = some f ↔ f.id = b :=
  ⟨Flag.id_of_ofId, fun h => h ▸ Flag.ofId_id f⟩

theorem Flag.ofLegalId_eq_filter (b : Byte) : Flag.ofLegalId b = (Flag.ofId b).filter Flag.legal := by
  unfold Flag.ofLegalId
  cases Flag.ofId b <;> rfl

theorem Flag.ofLegalId_eq_some_iff {b : Byte} {f : Flag} :
    Flag.ofLegalId b = some f ↔ f.id = b ∧ f.legal = true := by
  rw [Flag.ofLegalId_eq_filter, Option.filter_eq_some_iff, Flag.ofId_eq_some_iff]

/-- The ids that name a flag in some configuration (R112). -/
theorem Flag.id_range (f : Flag) :
    f.id.toNat < 7 ∨ (0x08 ≤ f.id.toNat ∧ f.id.toNat < 0x0F) ∨ (0x10 ≤ f.id.toNat ∧ f.id.toNat < 0x1E) ∨
      (0x20 ≤ f.id.toNat ∧ f.id.toNat < 0x28) ∨ (0x40 ≤ f.id.toNat ∧ f.id.toNat < 0x80) := by
  cases f with
  | cfa i | cfb i | rsb i | x i =>
    simp only [Flag.id, BitVec.toNat_ofNat]
    omega
  | _ => decide

theorem Signal.ofId_of_lt {b : Byte} (h : b.toNat < 0x80) : Signal.ofId b = (Flag.ofLegalId b).map .flag := by
  have hne (k : Byte) (hk : 0x80 ≤ k.toNat) : b ≠ k := by
    rintro rfl
    omega
  simp [Signal.ofId, hne]

theorem Flag.ofLegalId_id (f : Flag) : Flag.ofLegalId f.id = if f.legal then some f else none := by
  rw [Flag.ofLegalId_eq_filter, Flag.ofId_id]
  rfl

theorem Signal.ofId_flag_id (f : Flag) : Signal.ofId f.id = if f.legal then some (.flag f) else none := by
  have := f.id_range
  rw [Signal.ofId_of_lt (by omega), Flag.ofLegalId_id]
  cases f.legal <;> rfl

theorem Flag.ofLegalId_eq_none_of_forall {b : Byte} (h : ∀ f : Flag, f.id ≠ b) : Flag.ofLegalId b = none :=
  Option.eq_none_iff_forall_ne_some.mpr fun f hf => h f (Flag.ofLegalId_eq_some_iff.mp hf).1

theorem Signal.ofId_eq_none_of_reserved {b : Byte} (hflag : ∀ f : Flag, f.id ≠ b)
    (hknot : b.toNat < 0x80 ∨ 0x85 ≤ b.toNat) : Signal.ofId b = none := by
  have hne (k : Byte) (hlow : 0x80 ≤ k.toNat) (hhigh : k.toNat < 0x85) : b ≠ k := by
    rintro rfl
    omega
  simp [Signal.ofId, hne, Flag.ofLegalId_eq_none_of_forall hflag]

/-! ## Masks -/

theorem getLsbD_maskRun {lo len j : Nat} (h : lo + len ≤ 16) :
    (maskRun lo len).getLsbD j = decide (lo ≤ j ∧ j < lo + len) := by
  simp only [maskRun, BitVec.getLsbD_ofNat, Nat.testBit_mul_two_pow, Nat.testBit_two_pow_sub_one,
    ← Bool.decide_and]
  exact decide_eq_decide.mpr (by omega)

theorem maskLegal_iff {w : Nat} {m : Word} :
    maskLegal w m = true ↔ ∃ lo len, 0 < len ∧ lo + len ≤ w ∧ m = maskRun lo len := by
  simp only [maskLegal, List.any_eq_true, List.mem_range, beq_iff_eq]
  constructor
  · rintro ⟨lo, hlo, n, hn, hm⟩
    exact ⟨lo, n + 1, n.succ_pos, by omega, hm⟩
  · rintro ⟨lo, len, hpos, hlen, hm⟩
    exact ⟨lo, by omega, len - 1, by omega, by rw [hm, Nat.sub_add_cancel hpos]⟩

@[simp] theorem maskRun_zero (lo : Nat) : maskRun lo 0 = 0 := by simp [maskRun]

theorem Dest.width_le (d : Dest) : d.width ≤ 16 := by cases d <;> decide

/-- R106 in the words of R117: a mask is refused when it is 0, when it is not one run, or when it has a
bit outside the destination. -/
theorem maskLegal_eq_false_iff {w : Nat} {m : Word} (hw : w ≤ 16) :
    maskLegal w m = false ↔
      m = 0 ∨ (∀ lo n, lo + n ≤ 16 → m ≠ maskRun lo n) ∨ ∃ j, w ≤ j ∧ m.getLsbD j = true := by
  rw [← Bool.not_eq_true, maskLegal_iff]
  constructor
  · intro hno
    by_contra! hgood
    obtain ⟨hzero, ⟨lo, len, hrun, rfl⟩, hout⟩ := hgood
    have hpos : 0 < len := Nat.pos_of_ne_zero fun h => hzero (h ▸ maskRun_zero lo)
    have hin : lo + len ≤ w := by
      by_contra hbig
      exact hout (lo + len - 1) (by omega) (by rw [getLsbD_maskRun hrun]; exact decide_eq_true (by omega))
    exact hno ⟨lo, len, hpos, hin, rfl⟩
  · rintro hbad ⟨lo, len, hpos, hin, rfl⟩
    have hbit (j : Nat) := getLsbD_maskRun (j := j) (hin.trans hw)
    obtain hzero | hrun | ⟨j, hj, hset⟩ := hbad
    · have := hbit lo
      simp [hzero, hpos] at this
    · exact hrun lo len (hin.trans hw) rfl
    · rw [hbit, decide_eq_true_iff] at hset
      omega

end Sys2Proof
end

section
/-!
The rows of the opcode map (R103 to R115) as conditions on the fields of a word: the encoder writes a
row's fields and the decoder reads them all, so each undoes the other.
-/

namespace Sys2Proof

/-! ## The fields of each row -/

/-- The fields of one quartet of OT.NI: its bit of QEN says whether it is named, and the selector of a
quartet that is not named is 0 (R109). -/
def QuartetFields (c : CmdWord) (q : Nat) (x : Option NiSel) : Prop :=
  c.getLsbD (8 + q) = x.isSome ∧ c.extractLsb' (2 * q) 2 = selCode x

/-- The fields of an input transfer (R104 to R106). -/
def TransferFields (c : CmdWord) (knot : Nat) (d : Dest) (m : Word) : Prop :=
  (c.extractLsb' 28 4).toNat = 1 ∧ (c.extractLsb' 24 4).toNat = knot ∧
  c.extractLsb' 16 8 = d.id ∧ c.extractLsb' 0 16 = m

/-- The fields of a flag command (R110). -/
def FlagFields (c : CmdWord) (cls : Nat) (f : Flag) : Prop :=
  (c.extractLsb' 28 4).toNat = cls ∧ c.extractLsb' 8 20 = 0 ∧ c.extractLsb' 0 8 = f.id

/-- The row of the opcode map a command stands in, field by field (R103 to R114). -/
def RowFields (c : CmdWord) : Instr → Prop
  | .itNo d m => TransferFields c 0 d m
  | .itNa d m => TransferFields c 1 d m
  | .itNi d m => TransferFields c 2 d m
  | .itCn d m => TransferFields c 3 d m
  | .otNo s => (c.extractLsb' 28 4).toNat = 2 ∧ (c.extractLsb' 24 4).toNat = 0 ∧
      c.extractLsb' 4 20 = 0 ∧ c.extractLsb' 0 4 = s.id
  | .otNi s => (c.extractLsb' 28 4).toNat = 2 ∧ (c.extractLsb' 24 4).toNat = 2 ∧ c.extractLsb' 12 12 = 0 ∧
      QuartetFields c 0 s.q0 ∧ QuartetFields c 1 s.q1 ∧ QuartetFields c 2 s.q2 ∧ QuartetFields c 3 s.q3
  | .setf f => FlagFields c 3 f
  | .clrf f => FlagFields c 4 f
  | .togf f => FlagFields c 5 f
  | .latchAB => (c.extractLsb' 28 4).toNat = 6 ∧ c.extractLsb' 1 27 = 0 ∧ c.getLsbD 0 = false
  | .latchBA => (c.extractLsb' 28 4).toNat = 6 ∧ c.extractLsb' 1 27 = 0 ∧ c.getLsbD 0 = true
  | .mr => (c.extractLsb' 28 4).toNat = 7 ∧ c.extractLsb' 0 28 = 0
  | .mw => (c.extractLsb' 28 4).toNat = 8 ∧ c.extractLsb' 0 28 = 0

/-! ## The encoder writes the fields -/

theorem transferWord_eq_iff (knot : BitVec 4) (d : Dest) (m : Word) (c : CmdWord) :
    encodeTransfer ((1 : BitVec 4) ++ knot) d m = c ↔ TransferFields c knot.toNat d m := by
  unfold encodeTransfer TransferFields
  rw [append_eq_iff, extractLsb'_eq_append_iff, extractLsb'_eq_append_iff, BitVec.toNat_inj, and_assoc]
  exact and_congr_left' BitVec.toNat_inj.symm

theorem flagWord_eq_iff (cls : BitVec 4) (f : Flag) (c : CmdWord) :
    cls ++ (0 : BitVec 20) ++ f.id = c ↔ FlagFields c cls.toNat f := by
  rw [append_eq_iff, extractLsb'_eq_append_iff, FlagFields, BitVec.toNat_inj, and_assoc]

/-- OT.NI packs QEN above the selectors, each with quartet 3 highest (R109). -/
theorem encodeOtNi_eq_iff (s : Quartets (Option NiSel)) (c : CmdWord) :
    encodeOtNi s = c ↔ RowFields c (.otNi s) := by
  have word := append_eq_iff ((2 : BitVec 4) ++ ((2 : BitVec 4) ++ (0 : BitVec 12)))
    ((BitVec.ofBool s.q3.isSome ++
        (BitVec.ofBool s.q2.isSome ++ (BitVec.ofBool s.q1.isSome ++ BitVec.ofBool s.q0.isSome))) ++
      (selCode s.q3 ++ (selCode s.q2 ++ (selCode s.q1 ++ selCode s.q0)))) c
  simp only [extractLsb'_eq_append_iff, extractLsb'_one_eq_ofBool_iff] at word
  have toNat_two (x : BitVec 4) : x = 2 ↔ x.toNat = 2 := BitVec.toNat_inj.symm
  refine word.trans ?_
  simp only [RowFields, QuartetFields, toNat_two, Nat.reduceAdd, Nat.reduceMul]
  tauto

theorem otNoWord_eq_iff (s : NoSrc) (c : CmdWord) :
    (0x2000000 : BitVec 28) ++ s.id = c ↔ RowFields c (.otNo s) := by
  have word := append_eq_iff ((2 : BitVec 4) ++ ((0 : BitVec 4) ++ (0 : BitVec 20))) s.id c
  rw [extractLsb'_eq_append_iff, extractLsb'_eq_append_iff, and_assoc, and_assoc] at word
  exact word.trans (and_congr BitVec.toNat_inj.symm (and_congr_left' BitVec.toNat_inj.symm))

theorem latchWord_eq_iff (dir : Bool) (c : CmdWord) :
    (6 : BitVec 4) ++ ((0 : BitVec 27) ++ BitVec.ofBool dir) = c ↔
      (c.extractLsb' 28 4).toNat = 6 ∧ c.extractLsb' 1 27 = 0 ∧ c.getLsbD 0 = dir := by
  rw [append_eq_iff, extractLsb'_eq_append_iff, extractLsb'_one_eq_ofBool_iff]
  exact and_congr_left' BitVec.toNat_inj.symm

/-- A command's word is the one word with the fields of its row, so encoding loses no operand. -/
theorem encode_eq_iff {i : Instr} {c : CmdWord} : encode i = c ↔ RowFields c i := by
  cases i with
  | itNo d m => exact transferWord_eq_iff 0 d m c
  | itNa d m => exact transferWord_eq_iff 1 d m c
  | itNi d m => exact transferWord_eq_iff 2 d m c
  | itCn d m => exact transferWord_eq_iff 3 d m c
  | otNo s => exact otNoWord_eq_iff s c
  | otNi s => exact encodeOtNi_eq_iff s c
  | setf f => exact flagWord_eq_iff 3 f c
  | clrf f => exact flagWord_eq_iff 4 f c
  | togf f => exact flagWord_eq_iff 5 f c
  | latchAB => exact latchWord_eq_iff false c
  | latchBA => exact latchWord_eq_iff true c
  | mr => exact (append_eq_iff (7 : BitVec 4) (0 : BitVec 28) c).trans (and_congr_left' BitVec.toNat_inj.symm)
  | mw => exact (append_eq_iff (8 : BitVec 4) (0 : BitVec 28) c).trans (and_congr_left' BitVec.toNat_inj.symm)

/-! ## The decoder reads the fields -/

theorem decodeQuartet_eq_some_iff {c : CmdWord} {q : Nat} {x : Option NiSel} :
    decodeQuartet c q = some x ↔ QuartetFields c q x := by
  unfold decodeQuartet QuartetFields
  cases c.getLsbD (8 + q) with
  | false => cases x <;> simp [selCode]
  | true =>
    cases x with
    | none => simp
    | some s =>
      simp only [if_true, Option.some.injEq, Option.isSome_some, true_and, selCode]
      exact ⟨fun h => h ▸ (NiSel.code_ofCode _).symm, fun h => h ▸ NiSel.ofCode_code s⟩

theorem decodeQuartet_eq_none_iff {c : CmdWord} {q : Nat} :
    decodeQuartet c q = none ↔ c.getLsbD (8 + q) = false ∧ c.extractLsb' (2 * q) 2 ≠ 0 := by
  unfold decodeQuartet
  cases c.getLsbD (8 + q) <;> simp

/-- A selection with a quartet in QEN has a QEN field that is not 0 (R109). -/
theorem qen_ne_zero_of_someSet {c : CmdWord} {s : Quartets (Option NiSel)} (hs : s.someSet = true)
    (h : RowFields c (.otNi s)) : c.extractLsb' 8 4 ≠ 0 := by
  obtain ⟨-, -, -, ⟨h0, -⟩, ⟨h1, -⟩, ⟨h2, -⟩, ⟨h3, -⟩⟩ := h
  intro hqen
  have hbit (q : Nat) (hq : q < 4) : c.getLsbD (8 + q) = false := by
    have := congrArg (BitVec.getLsbD · q) hqen
    simpa [BitVec.getLsbD_extractLsb', hq, -BitVec.getLsbD_eq_getElem] using this
  rw [hbit _ (by decide)] at h0 h1 h2 h3
  simp [Quartets.someSet, ← h0, ← h1, ← h2, ← h3] at hs

/-- The decoder finds the command of a row in its fields, when the operands are legal (R117). -/
theorem decode_of_rowFields {i : Instr} {c : CmdWord} (hwf : i.wf = true) (h : RowFields c i) :
    decode c = .ok i := by
  cases i with
  | itNo d m | itNa d m | itNi d m | itCn d m =>
    obtain ⟨hcls, hknot, hd, hmask⟩ := h
    have hm : maskLegal d.width m = true := hwf
    simp [decode, hcls, decodeIT, hknot, decodeTransfer, hd, hmask, hm]
  | otNo s =>
    obtain ⟨hcls, hknot, hpad, hs⟩ := h
    simp [decode, hcls, decodeOT, hknot, decodeOtNo, hpad, hs]
  | otNi s =>
    have hqen := qen_ne_zero_of_someSet hwf h
    obtain ⟨hcls, hknot, hpad, h0, h1, h2, h3⟩ := h
    rw [← decodeQuartet_eq_some_iff] at h0 h1 h2 h3
    simpa [decode, hcls, decodeOT, hknot, decodeOtNi, hpad, h0, h1, h2, h3] using hqen
  | setf f | clrf f | togf f =>
    obtain ⟨hcls, hpad, hid⟩ := h
    have hf : Flag.ofLegalId f.id = some f := Flag.ofLegalId_eq_some_iff.mpr ⟨rfl, hwf⟩
    simp [decode, hcls, decodeFlagCmd, hpad, hid, hf]
  | latchAB | latchBA =>
    obtain ⟨hcls, hpad, hdir⟩ := h
    simp [decode, hcls, decodeLatch, hpad, hdir, -BitVec.getLsbD_eq_getElem]
  | mr | mw =>
    obtain ⟨hcls, hpad⟩ := h
    simp [decode, hcls, decodeMemory, hpad]

theorem decodeTransfer_ok {mk : Dest → Word → Instr} {c : CmdWord} {i : Instr} (h : decodeTransfer mk c = .ok i) :
    ∃ d, i = mk d (c.extractLsb' 0 16) ∧ c.extractLsb' 16 8 = d.id := by
  unfold decodeTransfer at h
  split at h
  · cases h
  · rename_i d hd
    split at h
    · exact ⟨d, (Except.ok.inj h).symm, (Dest.ofId_eq_some_iff.mp hd).symm⟩
    · cases h

theorem decodeIT_fields {c : CmdWord} {i : Instr} (hcls : (c.extractLsb' 28 4).toNat = 1)
    (h : decodeIT c = .ok i) : RowFields c i := by
  unfold decodeIT at h
  split at h
  case h_5 => cases h
  all_goals
    rename_i hknot
    obtain ⟨d, rfl, hd⟩ := decodeTransfer_ok h
    exact ⟨hcls, hknot, hd, rfl⟩

theorem decodeOtNi_fields {c : CmdWord} {i : Instr} (hcls : (c.extractLsb' 28 4).toNat = 2)
    (hknot : (c.extractLsb' 24 4).toNat = 2) (h : decodeOtNi c = .ok i) : RowFields c i := by
  unfold decodeOtNi at h
  split_ifs at h with hpad hqen
  split at h
  · rename_i h0 h1 h2 h3
    obtain rfl := Except.ok.inj h
    rw [decodeQuartet_eq_some_iff] at h0 h1 h2 h3
    exact ⟨hcls, hknot, not_not.mp hpad, h0, h1, h2, h3⟩
  · cases h

theorem decodeOT_fields {c : CmdWord} {i : Instr} (hcls : (c.extractLsb' 28 4).toNat = 2)
    (h : decodeOT c = .ok i) : RowFields c i := by
  unfold decodeOT at h
  split at h
  · rename_i hknot
    unfold decodeOtNo at h
    split_ifs at h with hpad
    split at h
    · cases h
    · rename_i hs
      obtain rfl := Except.ok.inj h
      exact ⟨hcls, hknot, not_not.mp hpad, (NoSrc.ofId_eq_some_iff.mp hs).symm⟩
  · rename_i hknot
    exact decodeOtNi_fields hcls hknot h
  · cases h

theorem decodeFlagCmd_ok {mk : Flag → Instr} {c : CmdWord} {i : Instr} (h : decodeFlagCmd mk c = .ok i) :
    ∃ f, i = mk f ∧ c.extractLsb' 8 20 = 0 ∧ c.extractLsb' 0 8 = f.id := by
  unfold decodeFlagCmd at h
  split_ifs at h with hpad
  split at h
  · cases h
  · rename_i f hf
    exact ⟨f, (Except.ok.inj h).symm, not_not.mp hpad, (Flag.ofLegalId_eq_some_iff.mp hf).1.symm⟩

theorem decodeLatch_fields {c : CmdWord} {i : Instr} (hcls : (c.extractLsb' 28 4).toNat = 6)
    (h : decodeLatch c = .ok i) : RowFields c i := by
  unfold decodeLatch at h
  split_ifs at h with hpad hdir
  · obtain rfl := Except.ok.inj h
    exact ⟨hcls, not_not.mp hpad, hdir⟩
  · obtain rfl := Except.ok.inj h
    exact ⟨hcls, not_not.mp hpad, Bool.not_eq_true _ ▸ hdir⟩

theorem decodeMemory_ok {j i : Instr} {c : CmdWord} (h : decodeMemory j c = .ok i) :
    i = j ∧ c.extractLsb' 0 28 = 0 := by
  unfold decodeMemory at h
  split_ifs at h with hpad
  exact ⟨(Except.ok.inj h).symm, not_not.mp hpad⟩

/-- The decoder answers only the command whose row the word stands in: it reads every bit (R115). -/
theorem rowFields_of_decode {c : CmdWord} {i : Instr} (h : decode c = .ok i) : RowFields c i := by
  unfold decode at h
  split at h <;> rename_i hcls
  case h_1 => exact decodeIT_fields hcls h
  case h_2 => exact decodeOT_fields hcls h
  case h_3 | h_4 | h_5 =>
    obtain ⟨f, rfl, hpad, hid⟩ := decodeFlagCmd_ok h
    exact ⟨hcls, hpad, hid⟩
  case h_6 => exact decodeLatch_fields hcls h
  case h_7 | h_8 =>
    obtain ⟨rfl, hpad⟩ := decodeMemory_ok h
    exact ⟨hcls, hpad⟩
  case h_9 => cases h

end Sys2Proof

namespace Sys2Proof.Machine

/-- Settles O1: the word of a command has the fields of its row, and the decoder reads them back. -/
theorem decodeOfEncode : Obligations.DecodeOfEncode :=
  fun _ hwf => decode_of_rowFields hwf (encode_eq_iff.mp rfl)

/-- Settles O2: a word that decodes has the fields of the command's row, and they are the whole word. -/
theorem encodeOfDecode : Obligations.EncodeOfDecode :=
  fun _ _ h => ⟨decode_wf h, encode_eq_iff.mpr (rowFields_of_decode h)⟩

end Sys2Proof.Machine
end

section
/-!
The words the decoder refuses, sub-decoder by sub-decoder, in the words of R117.
-/

namespace Sys2Proof

/-- What R117 says of the destination and the mask of an input transfer. -/
def TransferIllegal (c : CmdWord) : Prop :=
  0x12 ≤ (c.extractLsb' 16 8).toNat ∨ c.extractLsb' 0 16 = 0 ∨
    ∃ d : Dest, d.id = c.extractLsb' 16 8 ∧
      ((∀ lo n, lo + n ≤ 16 → c.extractLsb' 0 16 ≠ maskRun lo n) ∨
       ∃ j, d.width ≤ j ∧ (c.extractLsb' 0 16).getLsbD j = true)

theorem decodeTransfer_refused_iff (mk : Dest → Word → Instr) (c : CmdWord) :
    (∃ e, decodeTransfer mk c = .error e) ↔ TransferIllegal c := by
  unfold decodeTransfer TransferIllegal
  rw [← Dest.ofId_eq_none_iff]
  simp only [← Dest.ofId_eq_some_iff]
  cases Dest.ofId (c.extractLsb' 16 8) with
  | none => exact iff_of_true ⟨_, rfl⟩ (.inl rfl)
  | some d =>
    simp only [reduceCtorEq, false_or, Option.some.injEq, exists_eq_left', ← maskLegal_eq_false_iff d.width_le]
    cases maskLegal d.width (c.extractLsb' 0 16) <;> simp

theorem decodeIT_refused_iff (c : CmdWord) :
    (∃ e, decodeIT c = .error e) ↔ 4 ≤ (c.extractLsb' 24 4).toNat ∨ TransferIllegal c := by
  unfold decodeIT
  split
  case h_5 =>
    rename_i h0 h1 h2 h3
    rw [imp_false] at h0 h1 h2 h3
    exact iff_of_true ⟨_, rfl⟩ (.inl (by omega))
  all_goals
    rename_i hknot
    simp only [decodeTransfer_refused_iff, hknot, Nat.reduceLeDiff, false_or]

theorem decodeOtNo_refused_iff (c : CmdWord) :
    (∃ e, decodeOtNo c = .error e) ↔ c.extractLsb' 4 20 ≠ 0 ∨ 10 ≤ (c.extractLsb' 0 4).toNat := by
  unfold decodeOtNo
  rw [← NoSrc.ofId_eq_none_iff]
  split_ifs with hpad
  · exact iff_of_true ⟨_, rfl⟩ (.inl hpad)
  · cases NoSrc.ofId (c.extractLsb' 0 4) <;> simp_all

theorem decodeOtNi_refused_iff (c : CmdWord) :
    (∃ e, decodeOtNi c = .error e) ↔ c.extractLsb' 12 12 ≠ 0 ∨ c.extractLsb' 8 4 = 0 ∨
      ∃ q, q < 4 ∧ c.getLsbD (8 + q) = false ∧ c.extractLsb' (2 * q) 2 ≠ 0 := by
  simp only [← decodeQuartet_eq_none_iff]
  unfold decodeOtNi
  split_ifs with hpad hqen
  · exact iff_of_true ⟨_, rfl⟩ (.inl hpad)
  · exact iff_of_true ⟨_, rfl⟩ (.inr (.inl hqen))
  simp only [hpad, hqen, false_or]
  split
  · rename_i h0 h1 h2 h3
    refine iff_of_false (by simp) ?_
    rintro ⟨q, hq, hnone⟩
    interval_cases q <;> simp_all
  · rename_i hno
    refine iff_of_true ⟨_, rfl⟩ ?_
    by_contra! hall
    obtain ⟨a, ha⟩ := Option.ne_none_iff_exists'.mp (hall 0 (by decide))
    obtain ⟨b, hb⟩ := Option.ne_none_iff_exists'.mp (hall 1 (by decide))
    obtain ⟨d, hd⟩ := Option.ne_none_iff_exists'.mp (hall 2 (by decide))
    obtain ⟨e, he⟩ := Option.ne_none_iff_exists'.mp (hall 3 (by decide))
    exact hno a b d e ha hb hd he

theorem decodeOT_refused_iff (c : CmdWord) :
    (∃ e, decodeOT c = .error e) ↔
      ((c.extractLsb' 24 4).toNat ≠ 0 ∧ (c.extractLsb' 24 4).toNat ≠ 2) ∨
      ((c.extractLsb' 24 4).toNat = 0 ∧ ∃ e, decodeOtNo c = .error e) ∨
      ((c.extractLsb' 24 4).toNat = 2 ∧ ∃ e, decodeOtNi c = .error e) := by
  unfold decodeOT
  split
  · rename_i hknot
    simp [hknot]
  · rename_i hknot
    simp [hknot]
  · rename_i h0 h2
    exact iff_of_true ⟨_, rfl⟩ (.inl ⟨h0, h2⟩)

theorem decodeFlagCmd_refused_iff (mk : Flag → Instr) (c : CmdWord) :
    (∃ e, decodeFlagCmd mk c = .error e) ↔
      c.extractLsb' 8 20 ≠ 0 ∨ ∀ f : Flag, f.legal = true → f.id ≠ c.extractLsb' 0 8 := by
  unfold decodeFlagCmd
  split_ifs with hpad
  · exact iff_of_true ⟨_, rfl⟩ (.inl hpad)
  simp only [hpad, false_or]
  split
  · rename_i hnone
    refine iff_of_true ⟨_, rfl⟩ fun f hf hid => ?_
    rw [Flag.ofLegalId_eq_some_iff.mpr ⟨hid, hf⟩] at hnone
    cases hnone
  · rename_i f hf
    obtain ⟨hid, hlegal⟩ := Flag.ofLegalId_eq_some_iff.mp hf
    exact iff_of_false (by simp) fun hno => hno f hlegal hid

theorem decodeLatch_refused_iff (c : CmdWord) : (∃ e, decodeLatch c = .error e) ↔ c.extractLsb' 1 27 ≠ 0 := by
  unfold decodeLatch
  split_ifs with hpad hdir <;> simpa using hpad

theorem decodeMemory_refused_iff (i : Instr) (c : CmdWord) :
    (∃ e, decodeMemory i c = .error e) ↔ c.extractLsb' 0 28 ≠ 0 := by
  unfold decodeMemory
  split_ifs with hpad <;> simpa using hpad

theorem decode_refused_iff (c : CmdWord) : (∃ e, decode c = .error e) ↔ Machine.IllegalWord c := by
  unfold decode Machine.IllegalWord
  split <;> rename_i hcls
  case h_1 => simp [decodeIT_refused_iff, TransferIllegal, hcls, -BitVec.extractLsb'_toNat]
  case h_2 =>
    simp [decodeOT_refused_iff, decodeOtNo_refused_iff, decodeOtNi_refused_iff, hcls, -BitVec.extractLsb'_toNat]
  case h_3 | h_4 | h_5 => simp [decodeFlagCmd_refused_iff, hcls, -BitVec.extractLsb'_toNat]
  case h_6 => simp [decodeLatch_refused_iff, hcls, -BitVec.extractLsb'_toNat]
  case h_7 | h_8 => simp [decodeMemory_refused_iff, hcls, -BitVec.extractLsb'_toNat]
  case h_9 =>
    rename_i h1 h2 h3 h4 h5 h6 h7
    rw [imp_false] at h1 h2 h3 h4 h5 h6 h7 hcls
    exact iff_of_true ⟨_, rfl⟩ (.inl (by omega))

end Sys2Proof

namespace Sys2Proof.Machine

/-- Settles O4: each class refuses what its clause of R117 lists. -/
theorem illegalWordsAreRefused : Obligations.IllegalWordsAreRefused := decode_refused_iff

end Sys2Proof.Machine
end

section
/-!
Chart entries (R100 to R102), the selection of entries and the signals of guards (R113, R175 to R177),
and the registration of the tables (R118, R182).
-/

namespace Sys2Proof

/-! ## Entry words -/

theorem decodeEntry_eq_ok_iff {gs : GuardTable} {w : EntryWord} {n : Entry} :
    decodeEntry gs w = .ok n ↔
      w.extractLsb' 5 3 = 0 ∧ w.extractLsb' 16 16 = 0 ∧ (w.extractLsb' 0 5).toNat = n.pos.val ∧
      guardOfId gs (w.extractLsb' 8 8) = .ok n.guard ∧ decode (w.extractLsb' 32 32) = .ok n.cmd := by
  obtain ⟨pos, guard, cmd⟩ := n
  unfold decodeEntry
  split_ifs with hpad hpos
  · refine iff_of_false (by simp) ?_
    rintro ⟨hlow, hhigh, -⟩
    exact hpad.elim (· hlow) (· hhigh)
  · obtain ⟨hlow, hhigh⟩ := not_or.mp hpad
    rw [not_not] at hlow hhigh
    cases guardOfId gs (w.extractLsb' 8 8) <;> cases decode (w.extractLsb' 32 32) <;>
      simp [hlow, hhigh, Fin.ext_iff, -BitVec.extractLsb'_toNat]
  · refine iff_of_false (by simp) ?_
    rintro ⟨-, -, heq, -⟩
    exact hpos (heq ▸ pos.isLt)

/-- The entry word an encoder writes decodes to its position, guard and command (R100). -/
theorem decodeEntry_encodeEntry {gs : GuardTable} {pos : Fin 20} {id : Byte} {g : Guard} {c : CmdWord} {i : Instr}
    (hg : guardOfId gs id = .ok g) (hc : decode c = .ok i) :
    decodeEntry gs (encodeEntry pos id c) = .ok ⟨pos, g, i⟩ := by
  have word := append_eq_iff c ((0 : BitVec 16) ++ (id ++ ((0 : BitVec 3) ++ BitVec.ofNat 5 pos.val)))
    (encodeEntry pos id c)
  simp only [extractLsb'_eq_append_iff] at word
  obtain ⟨hcmd, hhigh, hid, hlow, hpos⟩ := word.mp rfl
  have hlt : pos.val % 2 ^ 5 = pos.val := Nat.mod_eq_of_lt (by omega)
  rw [decodeEntry_eq_ok_iff]
  refine ⟨hlow, hhigh, ?_, ?_, ?_⟩
  · rw [hpos, BitVec.toNat_ofNat, hlt]
  · exact (congrArg (guardOfId gs) hid).trans hg
  · exact (congrArg decode hcmd).trans hc

end Sys2Proof

namespace Sys2Proof.Machine

/-- Settles O5, by the checks of the entry decoder in turn. -/
theorem entryWordDecoding : Obligations.EntryWordDecoding := fun _ _ _ => decodeEntry_eq_ok_iff

/-! ## Selection and guards -/

theorem selected_skip {pre post : List Entry} {e : Entry} {p : Fin 20} {a : Arch} {k : Knots}
    (h : e.pos ≠ p ∨ guardHolds e.guard a k = false) :
    selected (pre ++ e :: post) p a k = selected (pre ++ post) p a k := by
  have hskip : (e.pos == p && guardHolds e.guard a k) = false := by
    obtain hpos | hguard := h
    · simp [hpos]
    · simp [hguard]
  simp [selected, List.filter_append, hskip]

theorem guardHolds_all_iff (ls : List Literal) (a : Arch) (k : Knots) :
    guardHolds (.all ls) a k = true ↔ ∀ l ∈ ls, signalHolds a k l.sig = l.positive := by
  simp [guardHolds, literalHolds]

/-- Settles O33: the selection skips the entry, and each id names the signal of its table. -/
theorem unselectedEntriesDoNothing : Obligations.UnselectedEntriesDoNothing := by
  refine ⟨fun pre post e k s h => ?_, guardHolds_all_iff,
    fun a k => ⟨?_, ?_, ?_, ?_, ?_, fun _ => rfl⟩, fun b hb => ?_⟩
  · rw [dispatch, dispatch, selected_skip h]
  · intro r hr
    fin_cases hr <;> exact ⟨rfl, rfl⟩
  · exact fun i => ⟨Signal.ofId_flag_id (.cfa i), rfl⟩
  · exact fun i => ⟨Signal.ofId_flag_id (.cfb i), rfl⟩
  · exact fun i => ⟨by simpa [Flag.id, Flag.legal] using Signal.ofId_flag_id (.rsb i), rfl⟩
  · exact fun i => ⟨by simpa [Flag.id, Flag.legal] using Signal.ofId_flag_id (.x i), rfl⟩
  · simp only [← BitVec.toNat_inj, BitVec.reduceToNat] at hb
    refine Signal.ofId_eq_none_of_reserved (fun f hf => ?_) (by omega)
    have hrange := f.id_range
    rw [hf] at hrange
    omega

/-! ## Registration -/

theorem runCycle_of_refused {h : HookFns} {s : State} {r : Refusal} (hr : advancePulse h s = .refused r) :
    runCycle h s = .refused r := by
  unfold runCycle pulsesToCycleEnd
  rw [hr]

theorem resolveGuard_ok_iff {g : GuardDef} :
    (∃ r, resolveGuard g = .ok r) ↔ ∀ ls, g = .all ls → ∀ l ∈ ls, ∃ x, Signal.ofId l.sigId = some x := by
  cases g with
  | pred n => simp [resolveGuard]
  | all ls =>
    simp only [GuardDef.all.injEq, forall_eq', ← resolveLiterals_ok_iff]
    unfold resolveGuard
    cases hls : resolveLiterals ls <;> simp [hls]

theorem checkGuards_ok_iff {gs : GuardTable} :
    checkGuards gs = .ok () ↔
      ∀ id ls l, (id, GuardDef.all ls) ∈ gs → l ∈ ls → ∃ x, Signal.ofId l.sigId = some x := by
  have each : checkGuards gs = .ok () ↔ ∀ p ∈ gs, ∃ r, resolveGuard p.2 = .ok r := by
    induction gs with
    | nil => simp [checkGuards]
    | cons p rest ih =>
      rw [List.forall_mem_cons, ← ih]
      obtain ⟨id, g⟩ := p
      cases hg : resolveGuard g <;> simp [checkGuards, hg]
  simp only [each, resolveGuard_ok_iff]
  exact ⟨fun h id ls l hp hl => h _ hp ls rfl l hl, fun h p hp ls hls l hl => h p.1 ls l (hls ▸ hp) hl⟩

/-- The keys of both tables stand in rising order, and id 0 is no guard (R57, R58; notes/assumptions/10.md). -/
def KeysInOrder (gs : GuardTable) (cs : RawCharts) : Prop :=
  keysRising (gs.map Prod.fst) = true ∧ 0 ∉ gs.map Prod.fst ∧ keysRising (cs.map Prod.fst) = true

theorem keysCheck_iff (gs : GuardTable) (cs : RawCharts) :
    (keysRising (gs.map Prod.fst) && !(gs.map Prod.fst).contains 0 && keysRising (cs.map Prod.fst)) = true ↔
      KeysInOrder gs cs := by
  simp [KeysInOrder, and_assoc]

theorem register_ok_iff {gs : GuardTable} {cs : RawCharts} {table : ChartTable} :
    register gs cs = .ok table ↔
      KeysInOrder gs cs ∧ checkGuards gs = .ok () ∧ decodeCharts gs cs = .ok table := by
  unfold register
  split_ifs with hcheck
  · have hkeys := (keysCheck_iff gs cs).mp hcheck
    cases checkGuards gs <;> simp [hkeys]
  · exact iff_of_false (by simp) fun h => hcheck ((keysCheck_iff gs cs).mpr h.1)

theorem register_error_of_forall_ne_ok {gs : GuardTable} {cs : RawCharts} (h : ∀ table, register gs cs ≠ .ok table) :
    ∃ e, register gs cs = .error e := by
  cases hreg : register gs cs with
  | error e => exact ⟨e, rfl⟩
  | ok table => exact absurd hreg (h table)

/-- Every element of the left list of a `Forall₂` is related to something. -/
theorem exists_rel_of_mem {α β : Type} {R : α → β → Prop} {l : List α} {l' : List β}
    (h : List.Forall₂ R l l') : ∀ a ∈ l, ∃ b, R a b :=
  ((List.forall₂_and_left l l').mp (h.imp fun _ b hab => ⟨⟨b, hab⟩, hab⟩)).1

theorem decodeEntry_ok_of_decodeCharts {gs : GuardTable} {cs : RawCharts} {table : ChartTable}
    (h : decodeCharts gs cs = .ok table) {ms : Byte} {ws : List EntryWord} (hms : (ms, ws) ∈ cs) :
    ∀ w ∈ ws, ∃ n, decodeEntry gs w = .ok n := by
  obtain ⟨t, -, hws⟩ := exists_rel_of_mem (decodeCharts_ok_iff.mp h) _ hms
  exact exists_rel_of_mem hws

/-- Settles O47: a passed check has every entry decoded and every signal known, so one that is not
makes it fail; and a failed check ends every call at once. -/
theorem illFormedTablesHaveNoRun : Obligations.IllFormedTablesHaveNoRun := by
  refine ⟨fun h s e hrun hreg => ?_, fun gs cs ms ws w e hms hw herr => ?_, fun gs cs id ls l hid hl hnone => ?_,
    fun gs cs table => ?_⟩
  · have hpulse : advancePulse h s = .refused (.illFormedConfiguration e) := by simp [advancePulse, hrun, hreg]
    exact ⟨hpulse, runCycle_of_refused hpulse, by simp [hostSetup, hrun, hreg]⟩
  · refine register_error_of_forall_ne_ok fun table hok => ?_
    obtain ⟨n, hn⟩ := decodeEntry_ok_of_decodeCharts (register_charts hok) hms w hw
    rw [herr] at hn
    cases hn
  · refine register_error_of_forall_ne_ok fun table hok => ?_
    obtain ⟨-, hguards, -⟩ := register_ok_iff.mp hok
    obtain ⟨x, hx⟩ := checkGuards_ok_iff.mp hguards id ls l hid hl
    rw [hnone] at hx
    cases hx
  · exact register_ok_iff.trans (and_congr_right' (and_congr checkGuards_ok_iff decodeCharts_ok_iff))

/-! ## The worked encodings -/

/-- Settles O3: the words are the encoder's, and what decodes them is the round trip of commands and
entries. -/
theorem workedEncodings : Obligations.WorkedEncodings := by
  unfold Obligations.WorkedEncodings
  intro rows
  have hrows : ∀ r ∈ rows, r.2.wf = true ∧ encode r.2 = BitVec.ofNat 32 r.1 ∧
      encodeEntry 19 0 (encode r.2) = BitVec.ofNat 64 (r.1 * 2 ^ 32 + 0x13) := by decide
  have hguarded : encodeEntry 5 3 (encode .mr) = 0x7000000000000305 := by decide
  refine ⟨fun r hr => ?_, hguarded, fun gs g hg => ?_⟩
  · obtain ⟨hwf, hword, hentry⟩ := hrows r hr
    rw [← hword, ← hentry]
    exact ⟨rfl, rfl, decodeOfEncode _ hwf, decodeEntry_encodeEntry rfl (decodeOfEncode _ hwf)⟩
  · rw [← hguarded]
    exact decodeEntry_encodeEntry hg (decodeOfEncode _ rfl)

end Sys2Proof.Machine
end

section
/-!
The sequencer (spec file 40): what one step is when the engine stands alone, how one pulse moves the
pulse index and the snapshot, and the twenty pulses of a cycle.
-/

namespace Sys2Proof.Machine

/-! ## The host and a failed engine -/

/-- Settles O54: the driving loop looks at the list of calls first. -/
theorem hostCallsBetweenPulses : Obligations.HostCallsBetweenPulses :=
  fun _ => ⟨fun c cs hcalls => by simp [step, hostTurn, hcalls], step_of_noCalls, rfl⟩

/-- Settles O45: STATUS is looked at before anything else, by the first pulse of a cycle too. -/
theorem failedEngineIsRefused : Obligations.FailedEngineIsRefused := by
  intro h s k hfailed
  have hpulse : advancePulse h s = .refused .engineFailed := by simp [advancePulse, hfailed]
  exact ⟨hpulse, runCycle_of_refused hpulse, by simp [hostSetup, hfailed]⟩

/-! ## What a dispatch keeps, and how a pulse ends -/

/-- A dispatch writes neither the snapshot, nor PI, nor STATUS (R31, R32). -/
theorem dispatch_keeps {chart : List Entry} {k : Knots} {s t : State} (h : dispatch chart k s = .next t) :
    t.pms = s.pms ∧ t.pi = s.pi ∧ t.status = s.status :=
  (dispatch_induct (P := fun u => u.pms = s.pms ∧ u.pi = s.pi ∧ u.status = s.status) (fun _ _ hu => hu)
    (fun _ _ _ _ ⟨hpms, hpi, hstatus⟩ hexec =>
      have ⟨epms, epi, estatus, _⟩ := exec_sameOutside hexec
      ⟨epms.trans hpms, epi.trans hpi, estatus.trans hstatus⟩)
    ⟨rfl, rfl, rfl⟩ h).1

theorem endPulse_of_stall {s : State} (hpi : s.pi = 19) (hms : s.ms = s.pms) :
    endPulse s = .fault (.stall s.ms s.pi (s.failed .stall)) :=
  if_pos ⟨hpi, hms⟩

theorem endPulse_of_moved {s : State} (hms : s.ms ≠ s.pms) : endPulse s = .next (s.setPi (nextPulse s.pi)) :=
  if_neg fun hstall => hms hstall.2

/-! ## The step of an engine that stands alone -/

/-- Nothing comes between the snapshot and the lookup (R141, R143). -/
theorem ReadyAlone.step_eq {s : State} {table : ChartTable} (ready : ReadyAlone s table) :
    step s = pulseFromLookup Config.hookFns table s.beginCycle := by
  rw [step_of_noCalls ready.noCalls, advancePulse_of_registered _ ready.running ready.tables,
    pulseOn_of_noHooks _ ready.noHooks]

theorem ReadyAlone.step_of_noChart {s : State} {table : ChartTable} (ready : ReadyAlone s table)
    (hlook : table.lookup s.ms = none) : step s = raiseFatal .chartMissing s.beginCycle := by
  obtain ⟨-, hms, -⟩ := s.beginCycle_keeps
  rw [ready.step_eq, pulseFromLookup, hms, hlook]

/-- With a chart the step is its dispatch on the state after the snapshot, with K of that state too, and
then the end of the pulse (R144 to R147). -/
theorem ReadyAlone.step_of_chart {s u : State} {table : ChartTable} {chart : List Entry}
    (ready : ReadyAlone s table) (hlook : table.lookup s.ms = some chart)
    (hdisp : dispatch chart (knotsOf s.beginCycle.toArch) s.beginCycle = .next u) : step s = endPulse u := by
  obtain ⟨keep, hms, -⟩ := s.beginCycle_keeps
  rw [ready.step_eq, pulseFromLookup, hms, hlook]
  simp [pulseWithChart, keep.hooks, ready.noHooks, hdisp]

/-- Settles O38: registration adds no chart, and the snapshot leaves MS and PI for the report. -/
theorem missingChartIsFatal : Obligations.MissingChartIsFatal := by
  intro s table ready hraw
  obtain ⟨hnone, -⟩ := decodeCharts_lookup (register_charts ready.tables) s.ms
  obtain ⟨keep, hms, -⟩ := s.beginCycle_keeps
  rw [ready.step_of_noChart (hnone.mp hraw), raiseFatal, hms, keep.pi]

/-- Settles O36: step 1 takes the snapshot, and neither the dispatch nor the end of the pulse writes it. -/
theorem snapshotAtCycleStart : Obligations.SnapshotAtCycleStart := by
  intro s t table ready hstep
  obtain ⟨-, -, -, -, hsnap⟩ := s.beginCycle_keeps
  cases hlook : table.lookup s.ms with
  | none =>
    rw [ready.step_of_noChart hlook] at hstep
    exact absurd hstep (raiseFatal_ne_next _ _ _)
  | some chart =>
    obtain ⟨u, hdisp, -⟩ := dispatch_next chart (knotsOf s.beginCycle.toArch) s.beginCycle
    rw [ready.step_of_chart hlook hdisp] at hstep
    obtain ⟨-, rfl⟩ := endPulse_next hstep
    obtain ⟨hpms, -⟩ := dispatch_keeps hdisp
    exact hpms.trans hsnap

/-- Settles O39: P19 takes no snapshot, so the step is the dispatch of `s` itself and then the check. -/
theorem stallCheckAtCycleEnd : Obligations.StallCheckAtCycleEnd := by
  intro s u table chart ready hpi hlook hdisp
  have hbegin : s.beginCycle = s := if_neg (by simp [hpi])
  obtain ⟨-, hkeep, -⟩ := dispatch_keeps hdisp
  have hu : u.pi = 19 := hkeep.trans hpi
  rw [ready.step_of_chart hlook (by rw [hbegin]; exact hdisp)]
  constructor
  · intro hstall
    rw [endPulse_of_stall hu hstall, hu]
  · intro hmoved
    rw [endPulse_of_moved hmoved, hu]
    rfl

/-! ## A chart of one entry -/

/-- An entry of this position whose guard holds is the one command of the pulse (R177). -/
theorem selected_singleton {p : Fin 20} {g : Guard} {i : Instr} {a : Arch} {k : Knots}
    (hg : guardHolds g a k = true) : selected [⟨p, g, i⟩] p a k = [i] := by
  simp [selected, hg]

theorem runCommands_singleton (i : Instr) (s : State) : runCommands [i] s = exec i s := by
  obtain ⟨t, ht⟩ := exec_next i s
  rw [runCommands_cons, ht]
  rfl

/-- Settles O35: the registered chart is the decoded entry, and the dispatch selects its command alone. -/
theorem stepRunsTheDecodedCommand : Obligations.StepRunsTheDecodedCommand := by
  intro s table w g i ready hraw hdec hguard
  obtain ⟨-, hsome⟩ := decodeCharts_lookup (register_charts ready.tables) s.ms
  obtain ⟨chart, hchart, hlook⟩ := hsome _ hraw
  obtain rfl : [⟨s.pi, g, i⟩] = chart := by simpa [decodeChart, hdec] using hchart
  obtain ⟨keep, -⟩ := s.beginCycle_keeps
  obtain ⟨t, hdisp, hrun⟩ := dispatch_next [⟨s.pi, g, i⟩] (knotsOf s.beginCycle.toArch) s.beginCycle
  rw [keep.pi, selected_singleton hguard, runCommands_singleton] at hrun
  exact ⟨t, hrun, ready.step_of_chart hlook hdisp⟩

/-! ## The pulse index -/

/-- A pulse that answers a next state ran its hooks without error and dispatched a chart, and its stall
check passed; whatever the hooks do (R141 to R147). -/
theorem advancePulse_next {h : HookFns} {s t : State} (ht : advancePulse h s = .next t) :
    ∃ chart k u v, s.status = .running ∧ HooksKeep s u ∧ dispatch chart k u = .next v ∧
      ¬ (v.pi = 19 ∧ v.ms = v.pms) ∧ t = v.setPi (nextPulse v.pi) := by
  obtain ⟨r, hr⟩ | ⟨table, c, hrun, -, hclock, hends⟩ := advancePulse_cases h s _ ht
  · cases hr
  · obtain ⟨e, -, hfail⟩ | ⟨-, -, hfail⟩ | ⟨chart, u, -, -, hpulse, ⟨e, -, hfail⟩ | ⟨v, -, hdisp, hend⟩⟩ := hends
    · exact absurd hfail (raiseFatal_ne_next _ _ _)
    · exact absurd hfail (raiseFatal_ne_next _ _ _)
    · exact absurd hfail (raiseFatal_ne_next _ _ _)
    · obtain ⟨hstall, rfl⟩ := endPulse_next hend
      exact ⟨chart, _, u, v, hrun, s.beginCycle_keeps.1.trans (hclock.trans hpulse), hdisp, hstall, rfl⟩

/-- Settles O37: neither the hooks nor the dispatch write PI or STATUS, and the end of the pulse advances
PI alone. -/
theorem pulseIndexAdvances : Obligations.PulseIndexAdvances := by
  intro h s t ht
  obtain ⟨chart, k, u, v, hrun, keep, hdisp, -, rfl⟩ := advancePulse_next ht
  obtain ⟨-, hpi, hstatus⟩ := dispatch_keeps hdisp
  refine ⟨?_, (hstatus.trans keep.status).trans hrun, hrun⟩
  rw [State.setPi_pi, nextPulse_val, hpi, keep.pi]

/-! ## The cycle -/

/-- The state one `advance_pulse` leaves; a refused pulse leaves the state it was asked in. -/
def afterPulse (h : HookFns) (s : State) : State :=
  match advancePulse h s with
  | .next t => t
  | .fault f => f.state
  | .refused _ => s

theorem afterPulse_of_next {h : HookFns} {s t : State} (ht : advancePulse h s = .next t) : afterPulse h s = t := by
  rw [afterPulse, ht]

/-- A successful run of pulses begins with a successful pulse, and stops there exactly at PI = 0 (R149). -/
theorem pulsesToCycleEnd_succ_next {h : HookFns} {n : Nat} {s t : State}
    (ht : pulsesToCycleEnd h (n + 1) s = .next t) :
    ∃ u, advancePulse h s = .next u ∧
      ((u.pi = 0 ∧ u = t) ∨ (u.pi ≠ 0 ∧ pulsesToCycleEnd h n u = .next t)) := by
  unfold pulsesToCycleEnd at ht
  split at ht
  · rename_i u hu
    split_ifs at ht with hzero
    · exact ⟨u, hu, .inl ⟨hzero, Host.Outcome.next.inj ht⟩⟩
    · exact ⟨u, hu, .inr ⟨hzero, ht⟩⟩
  · cases ht
  · cases ht

/-- The pulses that are left of a cycle: when a run of as many pulses as there are positions from PI to
P19 succeeds, it makes all of them, each at the next position, and ends at PI = 0. -/
theorem pulsesToCycleEnd_visits {h : HookFns} {n : Nat} {s t : State} (hn : s.pi.val + n = 20)
    (ht : pulsesToCycleEnd h n s = .next t) :
    (afterPulse h)^[n] s = t ∧ t.pi = 0 ∧
      ∀ j, j < n → ((afterPulse h)^[j] s).pi.val = s.pi.val + j ∧
        advancePulse h ((afterPulse h)^[j] s) = .next ((afterPulse h)^[j + 1] s) := by
  induction n generalizing s with
  | zero => omega
  | succ n ih =>
    obtain ⟨u, hu, hrest⟩ := pulsesToCycleEnd_succ_next ht
    obtain ⟨hpi, -, -⟩ := pulseIndexAdvances h s u hu
    have hafter : afterPulse h s = u := afterPulse_of_next hu
    simp only [Function.iterate_succ_apply, hafter]
    obtain ⟨hzero, rfl⟩ | ⟨hlive, hrun⟩ := hrest
    · have hlast : n = 0 := by
        rw [hzero, Fin.val_zero] at hpi
        omega
      subst hlast
      refine ⟨rfl, hzero, fun j hj => ?_⟩
      obtain rfl : j = 0 := by omega
      exact ⟨rfl, hu⟩
    · have hnext : u.pi.val = s.pi.val + 1 := by
        have := Fin.val_ne_zero_iff.mpr hlive
        omega
      obtain ⟨hend, hpi0, hvisits⟩ := ih (by omega) hrun
      refine ⟨hend, hpi0, fun j hj => ?_⟩
      cases j with
      | zero => exact ⟨rfl, hu⟩
      | succ j =>
        simp only [Function.iterate_succ_apply, hafter]
        obtain ⟨hpos, hpulse⟩ := hvisits j (by omega)
        exact ⟨by omega, hpulse⟩

/-- Settles O49: from PI = 0 the twenty pulses that are left are all of them. -/
theorem cycleVisitsEveryPulseOnce : Obligations.CycleVisitsEveryPulseOnce := by
  intro h s t hpi ht
  obtain ⟨hend, hzero, hvisits⟩ := pulsesToCycleEnd_visits (n := 20) (by rw [hpi]; rfl) ht
  exact ⟨fun j => (afterPulse h)^[j] s, rfl, hend, hzero, by simpa [hpi] using hvisits⟩

end Sys2Proof.Machine
end

section
/-!
The commands of one pulse (spec file 41): what a command of a dispatch is as an operation on the state
being built, what a list of them gives at each location, and the dispatch and its S0 and K as a whole.
-/

namespace Sys2Proof.Machine

/-! ## Where a command reads -/

/-- Settles O14: the field `disp` decides what both reads answer. -/
theorem commandSources : Obligations.CommandSources :=
  fun _ => ⟨fun _ hdisp => ⟨State.source_of_disp hdisp, State.bus_of_disp hdisp⟩,
    fun hnone => ⟨State.source_of_none hnone, State.bus_of_none hnone⟩⟩

/-! ## Operations that write a set of locations -/

/-- An operation on the state writes the locations of `writes` and no other, and what it writes there
does not depend on the state it is applied to (R178, R179). -/
structure WritesExactly (writes : Loc → Bool) (op : State → State) : Prop where
  unwritten : ∀ s l, writes l = false → AgreeAt l s (op s)
  written : ∀ s s' l, writes l = true → AgreeAt l (op s) (op s')

theorem transfer_writesExactly (d : Dest) (m v : Word) :
    WritesExactly (transferWrites d m) (State.transfer d m v) :=
  ⟨transfer_unwritten d m v, transfer_written d m v⟩

theorem putFlag_writesExactly (f : Flag) (b : Bool) : WritesExactly (flagWrites f) (State.putFlag f b) :=
  ⟨putFlag_unwritten f b, putFlag_written f b⟩

theorem Regs.readDest_selections (r : Regs) (no : NoSrc) (ni : Quartets NiSel) (d : Dest) :
    Regs.readDest { r with nosel := no, nisel := ni } d = r.readDest d := by
  cases d <;> rfl

theorem Regs.readFlag_selections (r : Regs) (no : NoSrc) (ni : Quartets NiSel) (f : Flag) :
    Regs.readFlag { r with nosel := no, nisel := ni } f = r.readFlag f := by
  cases f <;> rfl

/-- Each quartet in QEN takes its new selector, the others keep theirs (R222). -/
theorem quartet_updateSel (old : Quartets NiSel) (sel : Quartets (Option NiSel)) (q : Fin 4) :
    quartet (updateSel old sel) q = newSel (quartet old q) (quartet sel q) := by
  fin_cases q <;> rfl

theorem selectNo_writesExactly (c : DispatchCtx) (src : NoSrc) :
    WritesExactly (commandWrites c.k (.otNo src)) (fun s => s.setRegs { s.toRegs with nosel := src }) where
  unwritten s l hl := by
    cases l with
    | bit d j => exact congrArg (·.getLsbD j.val) (s.readDest_selections src s.nisel d).symm
    | flag f => exact (s.readFlag_selections src s.nisel f).symm
    | nosel => exact absurd hl (by simp [commandWrites])
    | nisel q => rfl
    | byte a => rfl
  written s s' l hl := by
    obtain rfl : l = .nosel := by simpa [commandWrites] using hl
    rfl

theorem selectNi_writesExactly (c : DispatchCtx) (sel : Quartets (Option NiSel)) :
    WritesExactly (commandWrites c.k (.otNi sel))
      (fun s => s.setRegs { s.toRegs with nisel := updateSel s.nisel sel }) where
  unwritten s l hl := by
    cases l with
    | bit d j => exact congrArg (·.getLsbD j.val) (s.readDest_selections s.nosel (updateSel s.nisel sel) d).symm
    | flag f => exact (s.readFlag_selections s.nosel (updateSel s.nisel sel) f).symm
    | nosel => rfl
    | nisel q =>
      have hkept : quartet sel q = none := by simpa [commandWrites] using hl
      simp [AgreeAt, quartet_updateSel, hkept, newSel]
    | byte a => rfl
  written s s' l hl := by
    cases l with
    | nisel q =>
      obtain ⟨x, hx⟩ := Option.isSome_iff_exists.mp hl
      simp [AgreeAt, quartet_updateSel, hx, newSel]
    | bit d j | flag f | nosel | byte a => cases hl

theorem memWrite_writesExactly (c : DispatchCtx) (v : Byte) :
    WritesExactly (commandWrites c.k .mw) (fun s => s.setMem (s.mem.write c.k.no v)) where
  unwritten s l hl := by
    cases l with
    | bit d j | flag f | nosel | nisel q => rfl
    | byte a =>
      have hother : a ≠ c.k.no := by simpa [commandWrites] using hl
      simp [AgreeAt, Memory.read_write, hother]
  written s s' l hl := by
    obtain rfl : l = .byte c.k.no := by simpa [commandWrites] using hl
    simp [AgreeAt, Memory.read_write]

/-! ## A command of a dispatch -/

/-- What a command does to the state being built, in the dispatch with the context `c`: every value it
writes is one of S0 and K (R174, R178). `exec_of_disp` ties it to `exec`. -/
def dispatchedEffect (c : DispatchCtx) : Instr → State → State
  | .itNo d m => State.transfer d m c.k.no
  | .itNa d m => State.transfer d m (c.k.na.setWidth 16)
  | .itNi d m => State.transfer d m c.k.ni
  | .itCn d m => State.transfer d m c.k.cn
  | .otNo src => fun s => s.setRegs { s.toRegs with nosel := src }
  | .otNi sel => fun s => s.setRegs { s.toRegs with nisel := updateSel s.nisel sel }
  | .setf f => State.putFlag f true
  | .clrf f => State.putFlag f false
  | .togf f => State.putFlag f (!c.s0.readFlag f)
  | .latchAB => State.transfer .cfb 0x007F (c.s0.cfa.setWidth 16)
  | .latchBA => State.transfer .cfa 0x007F (c.s0.cfb.setWidth 16)
  | .mr => State.transfer .rr 0x00FF ((c.s0.mem.read c.k.no).setWidth 16)
  | .mw => fun s => s.setMem (s.mem.write c.k.no (c.k.ni.setWidth 8))

theorem exec_of_disp {s : State} {c : DispatchCtx} (hdisp : s.disp = some c) (i : Instr) :
    exec i s = .next (dispatchedEffect c i s) := by
  obtain ⟨s0, k⟩ := c
  obtain rfl : s.source = s0 := State.source_of_disp hdisp
  obtain rfl : s.bus = k := State.bus_of_disp hdisp
  cases i <;> rfl

theorem dispatchedEffect_writesExactly (c : DispatchCtx) (i : Instr) :
    WritesExactly (commandWrites c.k i) (dispatchedEffect c i) := by
  cases i with
  | itNo d m | itNa d m | itNi d m | itCn d m => exact transfer_writesExactly d m _
  | latchAB | latchBA | mr => exact transfer_writesExactly _ _ _
  | setf f | clrf f | togf f => exact putFlag_writesExactly f _
  | otNo src => exact selectNo_writesExactly c src
  | otNi sel => exact selectNi_writesExactly c sel
  | mw => exact memWrite_writesExactly c _

theorem exec_unwritten {i : Instr} {s t : State} {c : DispatchCtx} {l : Loc} (hdisp : s.disp = some c)
    (h : exec i s = .next t) (hl : commandWrites c.k i l = false) : AgreeAt l s t := by
  obtain rfl := Host.Outcome.next.inj ((exec_of_disp hdisp i).symm.trans h)
  exact (dispatchedEffect_writesExactly c i).unwritten s l hl

theorem exec_written {i : Instr} {s s' t t' : State} {c : DispatchCtx} {l : Loc} (hdisp : s.disp = some c)
    (hdisp' : s'.disp = some c) (h : exec i s = .next t) (h' : exec i s' = .next t')
    (hl : commandWrites c.k i l = true) : AgreeAt l t t' := by
  obtain rfl := Host.Outcome.next.inj ((exec_of_disp hdisp i).symm.trans h)
  obtain rfl := Host.Outcome.next.inj ((exec_of_disp hdisp' i).symm.trans h')
  exact (dispatchedEffect_writesExactly c i).written s s' l hl

/-- Settles O25: a command of a dispatch is an operation whose values are fixed by S0 and K. -/
theorem commandWritesItsLocations : Obligations.CommandWritesItsLocations :=
  fun _ _ _ _ hdisp h => ⟨fun _ hl => exec_unwritten hdisp h hl,
    fun _ _ hdisp' h' _ hl => exec_written hdisp hdisp' h h' hl⟩

/-! ## A list of commands -/

theorem exec_disp {i : Instr} {s t : State} (h : exec i s = .next t) : t.disp = s.disp :=
  have ⟨_, _, _, _, _, hdisp, _⟩ := exec_sameOutside h
  hdisp

theorem SameOutside.trans {s t u : State} (a : SameOutside s t) (b : SameOutside t u) : SameOutside s u := by
  obtain ⟨apms, api, astatus, ⟨asel, asw⟩, atables, adisp, acalls, aseq⟩ := a
  obtain ⟨bpms, bpi, bstatus, ⟨bsel, bsw⟩, btables, bdisp, bcalls, bseq⟩ := b
  exact ⟨bpms.trans apms, bpi.trans api, bstatus.trans astatus, ⟨bsel.trans asel, bsw.trans asw⟩,
    atables.trans btables, bdisp.trans adisp, bcalls.trans acalls, bseq.trans aseq⟩

theorem runCommands_sameOutside {is : List Instr} {s t : State} (h : runCommands is s = .next t) :
    SameOutside s t :=
  runCommands_induct (fun _ _ _ _ hsame hexec => hsame.trans (exec_sameOutside hexec)) (SameOutside.refl s) h

/-- The commands of a list all run in the dispatch it begins in. -/
theorem runCommands_disp {is : List Instr} {s t : State} (h : runCommands is s = .next t) : t.disp = s.disp :=
  runCommands_induct (fun _ _ _ _ hsame hexec => (exec_disp hexec).trans hsame) rfl h

theorem runCommands_append {xs ys : List Instr} {s t : State} (h : runCommands (xs ++ ys) s = .next t) :
    ∃ u, runCommands xs s = .next u ∧ runCommands ys u = .next t := by
  induction xs generalizing s with
  | nil => exact ⟨s, rfl, h⟩
  | cons x xs ih =>
    obtain ⟨v, hv⟩ := exec_next x s
    rw [List.cons_append, runCommands_cons, hv] at h
    rw [runCommands_cons, hv]
    exact ih h

/-- A location that no command of the list writes holds what it held (R179). -/
theorem runCommands_unwritten {is : List Instr} {s t : State} {c : DispatchCtx} {l : Loc}
    (hdisp : s.disp = some c) (h : runCommands is s = .next t)
    (hl : ∀ i, i ∈ is → commandWrites c.k i l = false) : AgreeAt l s t :=
  (runCommands_induct (P := fun u => u.disp = some c ∧ AgreeAt l s u)
    (fun i hi _ _ ⟨hd, hagree⟩ hexec =>
      ⟨(exec_disp hexec).trans hd, hagree.trans (exec_unwritten hd hexec (hl i hi))⟩)
    ⟨hdisp, AgreeAt.refl s⟩ h).2

/-- The last command of a list that writes a location decides it: it writes there what it would write at
the start, and the commands after it leave it (R178, R179). -/
theorem runCommands_lastWriter {pre post : List Instr} {i : Instr} {s t u : State} {c : DispatchCtx} {l : Loc}
    (hdisp : s.disp = some c) (h : runCommands (pre ++ i :: post) s = .next t)
    (hi : commandWrites c.k i l = true) (hpost : ∀ j, j ∈ post → commandWrites c.k j l = false)
    (hu : exec i s = .next u) : AgreeAt l u t := by
  obtain ⟨v, hpre, hrest⟩ := runCommands_append h
  obtain ⟨w, hw⟩ := exec_next i v
  rw [runCommands_cons, hw] at hrest
  have hv : v.disp = some c := (runCommands_disp hpre).trans hdisp
  exact (exec_written hdisp hv hu hw hi).trans (runCommands_unwritten ((exec_disp hw).trans hv) hrest hpost)

/-- Settles O27: by the two cases of a location, unwritten and with a last writer. -/
theorem lastWriterDecides : Obligations.LastWriterDecides := by
  intro is s t c hdisp h l
  refine ⟨runCommands_unwritten hdisp h, ?_⟩
  rintro pre i post u rfl hi hpost hu
  exact runCommands_lastWriter hdisp h hi hpost hu

/-! ## Two commands -/

/-- The later of two commands has its value wherever it writes (R180). -/
theorem runCommands_pair_later {i j : Instr} {s t v : State} {c : DispatchCtx} {l : Loc}
    (hdisp : s.disp = some c) (hv : exec j s = .next v) (h : runCommands [i, j] s = .next t)
    (hj : commandWrites c.k j l = true) : AgreeAt l v t :=
  runCommands_lastWriter (pre := [i]) hdisp h hj (by simp) hv

/-- The earlier one has its value where the later does not write. -/
theorem runCommands_pair_earlier {i j : Instr} {s t u : State} {c : DispatchCtx} {l : Loc}
    (hdisp : s.disp = some c) (hu : exec i s = .next u) (h : runCommands [i, j] s = .next t)
    (hi : commandWrites c.k i l = true) (hj : commandWrites c.k j l = false) : AgreeAt l u t :=
  runCommands_lastWriter (pre := []) (post := [j]) hdisp h hi (by simpa using hj) hu

/-- Two commands with no written location in common commute (R180): a location is written by the one, by
the other, or by neither, and each order gives it the same value. -/
theorem runCommands_pair_comm {i j : Instr} {s t t' : State} {c : DispatchCtx} (hdisp : s.disp = some c)
    (hij : runCommands [i, j] s = .next t) (hji : runCommands [j, i] s = .next t')
    (hdisj : ∀ l, ¬ (commandWrites c.k i l = true ∧ commandWrites c.k j l = true)) (l : Loc) : AgreeAt l t t' := by
  obtain ⟨u, hu⟩ := exec_next i s
  obtain ⟨v, hv⟩ := exec_next j s
  cases hi : commandWrites c.k i l with
  | true =>
    have hj : commandWrites c.k j l = false := Bool.eq_false_iff.mpr fun hj => hdisj l ⟨hi, hj⟩
    exact (runCommands_pair_earlier hdisp hu hij hi hj).symm.trans (runCommands_pair_later hdisp hu hji hi)
  | false =>
    cases hj : commandWrites c.k j l with
    | true => exact (runCommands_pair_later hdisp hv hij hj).symm.trans (runCommands_pair_earlier hdisp hv hji hj hi)
    | false =>
      exact (runCommands_unwritten hdisp hij (by simp [hi, hj])).symm.trans
        (runCommands_unwritten hdisp hji (by simp [hi, hj]))

/-- Settles O26: each order is decided by its last writer at every location. -/
theorem independentOrLaterWins : Obligations.IndependentOrLaterWins := by
  intro i j s u v c hdisp hu hv
  obtain ⟨t, hij⟩ := runCommands_next [i, j] s
  obtain ⟨t', hji⟩ := runCommands_next [j, i] s
  have later : ∀ l, commandWrites c.k j l = true → AgreeAt l v t :=
    fun _ => runCommands_pair_later hdisp hv hij
  refine ⟨t, t', hij, hji, fun hdisj => ⟨runCommands_pair_comm hdisp hij hji hdisj, fun l hi => ?_, later⟩,
    later, fun _ => runCommands_pair_later hdisp hu hji⟩
  exact runCommands_pair_earlier hdisp hu hij hi (Bool.eq_false_iff.mpr fun hj => hdisj l ⟨hi, hj⟩)

/-! ## The dispatch -/

/-- Settles O32: the selected commands complete, and none of them writes outside. -/
theorem dispatchAlwaysCompletes : Obligations.DispatchAlwaysCompletes := by
  intro chart k s
  obtain ⟨t, hdispatch, hrun⟩ := dispatch_next chart k s
  obtain ⟨hpms, hpi, hstatus, hconsole, htables, -, hcalls, hseq⟩ := runCommands_sameOutside hrun
  exact ⟨t.setDisp none, hdispatch, rfl, hpms, hpi, hstatus, hconsole, htables, hcalls, hseq⟩

/-- Once the on-pulse hooks have run without error the pulse is the dispatch with the K computed before
them, and its end (R144 to R147). -/
theorem pulseWithChart_of_dispatch {h : HookFns} {chart : List Entry} {s t u : State}
    (hhooks : runHooks h.onPulse s.hooks s = (t, none)) (hdisp : dispatch chart (knotsOf s.toArch) t = .next u) :
    pulseWithChart h chart s = endPulse u := by
  simp [pulseWithChart, hhooks, hdisp]

/-- Settles O44: S0 is the state the hooks leave, K that of the state they began with. -/
theorem hookKnotSkew : Obligations.HookKnotSkew := by
  intro h chart s t hhooks
  obtain ⟨u, hdispatch, hrun⟩ := dispatch_next chart (knotsOf s.toArch) t
  exact ⟨u, hrun, pulseWithChart_of_dispatch hhooks hdispatch⟩

end Sys2Proof.Machine
end

section
/-!
The input transfers and the memory transfers (spec file 42): what a transfer into a destination changes
and leaves, the whole byte an MR puts into RR, the byte an MW stores, and which commands move MS.
-/

namespace Sys2Proof.Machine

/-! ## A transfer and a memory write on the state -/

/-- No transfer writes what lies outside the locations of commands (R31, R32, R57, R284). -/
theorem transfer_sameOutside (d : Dest) (m v : Word) (s : State) : SameOutside s (s.transfer d m v) := by
  obtain ⟨hpms, -, -, hconsel, hconsw, -, -⟩ := Regs.writeDest_rest s.toRegs d m v
  exact setRegs_sameOutside hpms hconsel hconsw

theorem transfer_sameSelections (d : Dest) (m v : Word) (s : State) : SameSelections s (s.transfer d m v) := by
  obtain ⟨-, hnosel, hnisel, -⟩ := Regs.writeDest_rest s.toRegs d m v
  exact ⟨hnosel, hnisel⟩

theorem transfer_readDest_other {d d' : Dest} (m v : Word) (s : State) (hd : d' ≠ d) :
    (s.transfer d m v).readDest d' = s.readDest d' :=
  Regs.readDest_writeDest_other s.toRegs m v hd

/-- The bits of the destination of a transfer (R200). -/
theorem transfer_readDest_same {d : Dest} (m v : Word) (s : State) {j : Nat} (hj : j < d.width) :
    ((s.transfer d m v).readDest d).getLsbD j = if m.getLsbD j then v.getLsbD j else (s.readDest d).getLsbD j := by
  simp only [State.transfer_toRegs, Regs.readDest_writeDest, hj, true_and]

theorem transfer_sameOtherFlags (d : Dest) (m v : Word) (s : State) : SameOtherFlags s (s.transfer d m v) := by
  intro f hf
  refine Regs.writeDest_flag s.toRegs d m v f ?_ ?_
  · rintro i rfl
    cases hf
  · rintro i rfl
    cases hf

/-- Only the condition groups hold flags: a transfer elsewhere changes none (R208). -/
theorem transfer_sameFlags {d : Dest} (hcfa : d ≠ .cfa) (hcfb : d ≠ .cfb) (m v : Word) (s : State) :
    SameFlags s (s.transfer d m v) := by
  intro f
  have hunwritten : transferWrites d m (.flag f) = false := by
    cases f <;> simp [transferWrites, hcfa, hcfb]
  exact (transfer_unwritten d m v s (.flag f) hunwritten).symm

theorem transfer_ms_of_ne {d : Dest} (hd : d ≠ .ms) (m v : Word) (s : State) : (s.transfer d m v).ms = s.ms := by
  cases d with
  | ms => exact absurd rfl hd
  | _ => rfl

/-- A transfer's outcome in the terms of the claims: its masked bits and its frame (R200). -/
theorem transfer_writesMasked (d : Dest) (m v : Word) (s : State) :
    WritesMasked (.next (s.transfer d m v)) s d m v :=
  ⟨s.transfer d m v, rfl, fun _ hj => transfer_readDest_same m v s hj,
    fun _ hd => transfer_readDest_other m v s hd, transfer_sameOtherFlags d m v s, fun _ => rfl,
    transfer_sameSelections d m v s, transfer_sameOutside d m v s⟩

theorem writeBits_allOnes {w : Nat} (d v : BitVec w) : writeBits d (BitVec.allOnes w) v = v := by
  simp [writeBits]

/-- Under the full mask RR takes the whole byte that is transferred (R205). -/
theorem transfer_rr_byte (b : Byte) (s : State) : (s.transfer .rr 0x00FF (b.setWidth 16)).rr = b := by
  calc (s.transfer .rr 0x00FF (b.setWidth 16)).rr
      = writeBits s.rr (BitVec.allOnes 8) ((b.setWidth 16).setWidth 8) := rfl
    _ = (b.setWidth 16).setWidth 8 := writeBits_allOnes s.rr _
    _ = b := by simp

/-- The byte stored from a word is its low byte (R206). -/
theorem Memory.read_write_lowByte (mem : Memory) (a v : Word) :
    (mem.write a (v.setWidth 8)).read a = v.extractLsb' 0 8 := by
  rw [Memory.read_write, if_pos rfl, BitVec.setWidth_eq_extractLsb' (by decide)]

theorem Memory.read_write_other (mem : Memory) {a b : Word} (v : Byte) (hb : b ≠ a) :
    (mem.write a v).read b = mem.read b := by
  rw [Memory.read_write, if_neg hb]

/-! ## The commands of file 42 -/

/-- The value an input transfer copies from a knot, NA zero-extended (R201 to R204). `exec_it` ties it to
`exec`. -/
def Knots.copied (k : Knots) : Knot → Word
  | .no => k.no
  | .na => k.na.setWidth 16
  | .ni => k.ni
  | .cn => k.cn

theorem exec_it (k : Knot) (d : Dest) (m : Word) (s : State) :
    exec (.it k d m) s = .next (s.transfer d m (s.bus.copied k)) := by
  cases k <;> rfl

theorem exec_mr (s : State) :
    exec .mr s = .next (s.transfer .rr 0x00FF ((s.source.mem.read s.bus.no).setWidth 16)) := rfl

theorem exec_mw (s : State) : exec .mw s = .next (s.setMem (s.mem.write s.bus.no (s.bus.ni.setWidth 8))) := rfl

theorem exec_it_writesMasked (k : Knot) (d : Dest) (m : Word) (s : State) :
    WritesMasked (exec (.it k d m) s) s d m (s.bus.copied k) := by
  rw [exec_it]
  exact transfer_writesMasked d m _ s

/-- Settles O15: an input transfer is a transfer of what it copies from its knot. -/
theorem inputTransfersWriteMaskedBits : Obligations.InputTransfersWriteMaskedBits :=
  fun d m s => ⟨exec_it_writesMasked .no d m s, exec_it_writesMasked .na d m s,
    exec_it_writesMasked .ni d m s, exec_it_writesMasked .cn d m s⟩

/-- Settles O16: MR is a transfer of the whole byte into RR, which holds no flag. -/
theorem memoryReadIntoRr : Obligations.MemoryReadIntoRr :=
  fun s => ⟨_, exec_mr s, transfer_rr_byte _ s, fun _ hd => transfer_readDest_other _ _ s hd,
    transfer_sameFlags (by decide) (by decide) _ _ s, fun _ => rfl,
    transfer_sameSelections _ _ _ s, transfer_sameOutside _ _ _ s⟩

/-- Settles O17: MW is one write of memory, which reaches no other part of the state. -/
theorem memoryWriteFromNi : Obligations.MemoryWriteFromNi :=
  fun s => ⟨_, exec_mw s, s.mem.read_write_lowByte s.bus.no s.bus.ni,
    fun _ ha => s.mem.read_write_other _ ha, fun _ => rfl, fun _ => rfl, ⟨rfl, rfl⟩,
    exec_sameOutside (exec_mw s)⟩

/-! ## Which commands move MS -/

/-- A command is an input transfer, or it leaves MS (R207). -/
theorem exec_it_or_ms_kept {i : Instr} {s t : State} (h : exec i s = .next t) :
    (∃ k d m, i = .it k d m) ∨ t.ms = s.ms := by
  have moved {u : State} (hu : exec i s = .next u) : t = u := Host.Outcome.next.inj (h.symm.trans hu)
  cases i with
  | itNo d m => exact .inl ⟨.no, d, m, rfl⟩
  | itNa d m => exact .inl ⟨.na, d, m, rfl⟩
  | itNi d m => exact .inl ⟨.ni, d, m, rfl⟩
  | itCn d m => exact .inl ⟨.cn, d, m, rfl⟩
  | setf f | clrf f | togf f =>
    obtain rfl := moved rfl
    obtain ⟨-, -, -, -, -, hms⟩ := Regs.writeFlag_rest s.toRegs f _
    exact .inr hms
  | otNo src | otNi sel | latchAB | latchBA | mr | mw =>
    obtain rfl := moved rfl
    exact .inr rfl

/-- Settles O24: an input transfer into another destination leaves MS too. -/
theorem onlyTransfersIntoMsMoveIt : Obligations.OnlyTransfersIntoMsMoveIt := by
  intro i s t h hmoved
  obtain ⟨k, d, m, rfl⟩ | hkept := exec_it_or_ms_kept h
  · obtain rfl := Host.Outcome.next.inj ((exec_it k d m s).symm.trans h)
    by_cases hd : d = .ms
    · exact ⟨k, m, by rw [hd]⟩
    · exact absurd (transfer_ms_of_ne hd _ _ s) hmoved
  · exact absurd hkept hmoved

/-! ## MR beside MW -/

/-- Two commands of a dispatch are their two effects, each with the values of the same S0 and K (R174). -/
theorem runCommands_pair_of_disp {s : State} {c : DispatchCtx} (hdisp : s.disp = some c) (i j : Instr) :
    runCommands [i, j] s = .next (dispatchedEffect c j (dispatchedEffect c i s)) := by
  have hi := exec_of_disp hdisp i
  have hj := exec_of_disp ((exec_disp hi).trans hdisp) j
  rw [runCommands_cons, hi]
  exact (runCommands_singleton j _).trans hj

/-- Settles O30: the MR reads S0, and each of the two leaves what the other writes. -/
theorem readSeesTheOldByte : Obligations.ReadSeesTheOldByte := by
  intro s c hdisp is his
  obtain rfl | rfl := his
  · exact ⟨_, runCommands_pair_of_disp hdisp .mw .mr, transfer_rr_byte _ _, Memory.read_write_lowByte _ _ _⟩
  · exact ⟨_, runCommands_pair_of_disp hdisp .mr .mw, transfer_rr_byte _ s, Memory.read_write_lowByte _ _ _⟩

end Sys2Proof.Machine
end

section
/-!
The output transfers (spec file 43): what a write of the knot selections changes and leaves, the two
commands as such writes, and the pulse in which a selection meets a transfer from its knot.
-/

namespace Sys2Proof.Machine

/-! ## A write of the selections on the state -/

/-- The state with other knot selections. `exec_otNo` and `exec_otNi` tie it to `exec`. -/
def State.select (no : NoSrc) (ni : Quartets NiSel) (s : State) : State :=
  s.setRegs { s.toRegs with nosel := no, nisel := ni }

@[simp] theorem State.select_nosel (no : NoSrc) (ni : Quartets NiSel) (s : State) : (s.select no ni).nosel = no := rfl

@[simp] theorem State.select_nisel (no : NoSrc) (ni : Quartets NiSel) (s : State) : (s.select no ni).nisel = ni := rfl

theorem select_sameRegs (no : NoSrc) (ni : Quartets NiSel) (s : State) : SameRegs s (s.select no ni) :=
  s.readDest_selections no ni

theorem select_sameFlags (no : NoSrc) (ni : Quartets NiSel) (s : State) : SameFlags s (s.select no ni) :=
  s.readFlag_selections no ni

theorem select_sameMem (no : NoSrc) (ni : Quartets NiSel) (s : State) : SameMem s (s.select no ni) := fun _ => rfl

theorem select_sameOutside (no : NoSrc) (ni : Quartets NiSel) (s : State) : SameOutside s (s.select no ni) :=
  setRegs_sameOutside rfl rfl rfl

/-! ## The commands of file 43 -/

theorem exec_otNo (src : NoSrc) (s : State) : exec (.otNo src) s = .next (s.select src s.nisel) := rfl

theorem exec_otNi (sel : Quartets (Option NiSel)) (s : State) :
    exec (.otNi sel) s = .next (s.select s.nosel (updateSel s.nisel sel)) := rfl

/-- A quartet in QEN takes its new selector (R222). -/
theorem quartet_updateSel_of_some {sel : Quartets (Option NiSel)} {q : Fin 4} {x : NiSel}
    (old : Quartets NiSel) (hx : quartet sel q = some x) : quartet (updateSel old sel) q = x := by
  rw [quartet_updateSel, hx, newSel]

/-- A quartet outside QEN keeps its selector (R222). -/
theorem quartet_updateSel_of_none {sel : Quartets (Option NiSel)} {q : Fin 4}
    (old : Quartets NiSel) (hnone : quartet sel q = none) : quartet (updateSel old sel) q = quartet old q := by
  rw [quartet_updateSel, hnone, newSel]

/-- Settles O18: OT.NO is a write of the selections that keeps NISEL. -/
theorem selectNoSource : Obligations.SelectNoSource :=
  fun src s => ⟨_, exec_otNo src s, s.select_nosel _ _, s.select_nisel _ _, select_sameRegs _ _ s,
    select_sameFlags _ _ s, select_sameMem _ _ s, select_sameOutside _ _ s⟩

/-- Settles O19: OT.NI is a write of the selections that keeps NOSEL, quartet by quartet. -/
theorem selectNiSources : Obligations.SelectNiSources :=
  fun sel s => ⟨_, exec_otNi sel s, fun _ _ hx => quartet_updateSel_of_some s.nisel hx,
    fun _ hnone => quartet_updateSel_of_none s.nisel hnone, s.select_nosel _ _,
    select_sameRegs _ _ s, select_sameFlags _ _ s, select_sameMem _ _ s, select_sameOutside _ _ s⟩

/-! ## OT.NO beside IT.NO -/

/-- The NO knot of a state is that of the source its NOSEL names (R251). -/
theorem knotsOf_no_of_nosel {t : State} {src : NoSrc} (hsel : t.nosel = src) :
    (knotsOf t.toArch).no = noKnot Config.force1 Config.force2 { t.toRegs with nosel := src } := by
  subst hsel
  rfl

/-- Settles O31: the transfer copies the NO knot of K and keeps the selection; the selection keeps every
destination. So in either order both writes stand. -/
theorem selectionSeenNextPulse : Obligations.SelectionSeenNextPulse := by
  intro src d m s c hdisp is his
  obtain rfl | rfl := his
  · obtain ⟨hnosel, -⟩ := transfer_sameSelections d m c.k.no (s.select src s.nisel)
    have hsel := hnosel.trans (s.select_nosel src s.nisel)
    refine ⟨_, runCommands_pair_of_disp hdisp (.otNo src) (.itNo d m), hsel, fun j hj => ?_,
      knotsOf_no_of_nosel hsel⟩
    have hbits := transfer_readDest_same m c.k.no (s.select src s.nisel) hj
    rwa [select_sameRegs src s.nisel s d] at hbits
  · have hsel := (s.transfer d m c.k.no).select_nosel src (s.transfer d m c.k.no).nisel
    refine ⟨_, runCommands_pair_of_disp hdisp (.itNo d m) (.otNo src), hsel, fun j hj => ?_,
      knotsOf_no_of_nosel hsel⟩
    have hbits := transfer_readDest_same m c.k.no s hj
    rwa [← select_sameRegs src (s.transfer d m c.k.no).nisel (s.transfer d m c.k.no) d] at hbits

end Sys2Proof.Machine
end

section
/-!
The update and control family (spec file 44): a write of one flag and a copy of a condition group as
outcomes with their frames, the commands that are such writes, and the pulse in which they meet: toggles,
the two latches side by side, and the per-cycle latch of the convention.
-/

namespace Sys2Proof.Machine

/-! ## A write of one flag -/

/-- The flag written holds the value written (R230). -/
theorem putFlag_readFlag_same (f : Flag) (b : Bool) (s : State) : (s.putFlag f b).readFlag f = b := by
  rw [State.putFlag_toRegs, Regs.readFlag_writeFlag, if_pos rfl]

theorem putFlag_readFlag_other {f g : Flag} (b : Bool) (s : State) (hg : g ≠ f) :
    (s.putFlag f b).readFlag g = s.readFlag g := by
  rw [State.putFlag_toRegs, Regs.readFlag_writeFlag, if_neg hg]

/-- A flag write's outcome in the terms of the claims: its one flag and its frame (R230). -/
theorem putFlag_writesFlag (f : Flag) (b : Bool) (s : State) : WritesFlag (.next (s.putFlag f b)) s f b := by
  obtain ⟨hpms, hnosel, hnisel, hconsel, hconsw, -⟩ := Regs.writeFlag_rest s.toRegs f b
  exact ⟨s.putFlag f b, rfl, putFlag_readFlag_same f b s, fun _ hg => putFlag_readFlag_other b s hg,
    fun _ hcfa hcfb => Regs.writeFlag_dest s.toRegs f b _ hcfa hcfb, fun _ => rfl, ⟨hnosel, hnisel⟩,
    setRegs_sameOutside hpms hconsel hconsw⟩

theorem exec_setf (f : Flag) (s : State) : exec (.setf f) s = .next (s.putFlag f true) := rfl

theorem exec_clrf (f : Flag) (s : State) : exec (.clrf f) s = .next (s.putFlag f false) := rfl

theorem exec_togf (f : Flag) (s : State) : exec (.togf f) s = .next (s.putFlag f (!s.source.readFlag f)) := rfl

/-- Settles O20: each flag command is one write of a flag; the toggle's value is the inverse of S0's. -/
theorem flagCommandsWriteOneFlag : Obligations.FlagCommandsWriteOneFlag := by
  intro f s
  rw [exec_setf, exec_clrf, exec_togf]
  exact ⟨putFlag_writesFlag f _ s, putFlag_writesFlag f _ s, putFlag_writesFlag f _ s⟩

/-- In a dispatch a toggle after any command leaves the inverse of the flag of S0 (R232). -/
theorem runCommands_pair_togf {s : State} {c : DispatchCtx} (hdisp : s.disp = some c) (i : Instr) (f : Flag) :
    ∃ t, runCommands [i, .togf f] s = .next t ∧ t.readFlag f = !c.s0.readFlag f :=
  ⟨_, runCommands_pair_of_disp hdisp i (.togf f), putFlag_readFlag_same f _ _⟩

/-- Settles O28: the second command is the toggle, whatever the first one wrote. -/
theorem togglesReadTheSnapshot : Obligations.TogglesReadTheSnapshot :=
  fun f _ _ hdisp => ⟨runCommands_pair_togf hdisp (.togf f) f, runCommands_pair_togf hdisp (.setf f) f⟩

/-! ## A copy of a condition group -/

/-- The mask of a latch covers all seven bits of a group (R236, R237). -/
theorem writeBits_group (old g : Group) :
    writeBits old ((0x007F : Word).setWidth 7) ((g.setWidth 16).setWidth 7) = g := by
  calc writeBits old ((0x007F : Word).setWidth 7) ((g.setWidth 16).setWidth 7)
      = writeBits old (BitVec.allOnes 7) ((g.setWidth 16).setWidth 7) := rfl
    _ = (g.setWidth 16).setWidth 7 := writeBits_allOnes old _
    _ = g := by simp

theorem transfer_cfa_group (g : Group) (s : State) : (s.transfer .cfa 0x007F (g.setWidth 16)).cfa = g :=
  writeBits_group s.cfa g

theorem transfer_cfb_group (g : Group) (s : State) : (s.transfer .cfb 0x007F (g.setWidth 16)).cfb = g :=
  writeBits_group s.cfb g

theorem transfer_cfa_keeps_cfb (m v : Word) (s : State) : (s.transfer .cfa m v).cfb = s.cfb := rfl

theorem transfer_cfb_keeps_cfa (m v : Word) (s : State) : (s.transfer .cfb m v).cfa = s.cfa := rfl

/-- What a transfer leaves unchanged (R200). -/
theorem transfer_frame (d : Dest) (m v : Word) (s : State) :
    (∀ d', d' ≠ d → (s.transfer d m v).readDest d' = s.readDest d') ∧ SameOtherFlags s (s.transfer d m v) ∧
    SameMem s (s.transfer d m v) ∧ SameSelections s (s.transfer d m v) ∧ SameOutside s (s.transfer d m v) :=
  ⟨fun _ hd => transfer_readDest_other m v s hd, transfer_sameOtherFlags d m v s, fun _ => rfl,
    transfer_sameSelections d m v s, transfer_sameOutside d m v s⟩

theorem exec_latchAB (s : State) : exec .latchAB s = .next (s.transfer .cfb 0x007F (s.source.cfa.setWidth 16)) := rfl

theorem exec_latchBA (s : State) : exec .latchBA s = .next (s.transfer .cfa 0x007F (s.source.cfb.setWidth 16)) := rfl

/-- Settles O21: LATCH.AB is a transfer of all of S0's CFA. -/
theorem latchBFromA : Obligations.LatchBFromA :=
  fun s => ⟨_, exec_latchAB s, transfer_cfb_group _ s, transfer_frame _ _ _ s⟩

/-- Settles O22: LATCH.BA is a transfer of all of S0's CFB. -/
theorem latchAFromB : Obligations.LatchAFromB :=
  fun s => ⟨_, exec_latchBA s, transfer_cfa_group _ s, transfer_frame _ _ _ s⟩

/-- Settles O29: both latches copy a group of S0, and each leaves the group the other fills. -/
theorem latchesSwapTheGroups : Obligations.LatchesSwapTheGroups := by
  intro s c hdisp
  constructor
  · refine ⟨_, runCommands_pair_of_disp hdisp .latchAB .latchBA, transfer_cfa_group _ _, ?_⟩
    exact (transfer_cfa_keeps_cfb _ _ _).trans (transfer_cfb_group c.s0.cfa s)
  · refine ⟨_, runCommands_pair_of_disp hdisp .latchBA .latchAB, ?_, transfer_cfb_group _ _⟩
    exact (transfer_cfb_keeps_cfa _ _ _).trans (transfer_cfa_group c.s0.cfb s)

/-! ## The latch convention -/

/-- The latch of a direction, read and written as a destination (R236, R237). -/
theorem exec_latch (dir : LatchDir) (s : State) :
    exec dir.command s = .next (s.transfer dir.target 0x007F (s.source.readDest dir.source)) := by
  cases dir <;> rfl

theorem transfer_latch (dir : LatchDir) (r : Regs) (s : State) :
    (s.transfer dir.target 0x007F (r.readDest dir.source)).readDest dir.target = r.readDest dir.source := by
  cases dir with
  | ab => exact congrArg (·.setWidth 16) (transfer_cfb_group r.cfa s)
  | ba => exact congrArg (·.setWidth 16) (transfer_cfa_group r.cfb s)

theorem transferWrites_bit {d : Dest} {m : Word} {j : Fin 16} (hm : m.getLsbD j.val = true) (hj : j.val < d.width) :
    transferWrites d m (.bit d j) = true := by
  rw [transferWrites, beq_self_eq_true, hm, decide_eq_true hj]
  rfl

/-- A latch writes every bit of the group it fills. -/
theorem latch_writes (dir : LatchDir) (k : Knots) {j : Fin 16} (hj : j.val < dir.target.width) :
    commandWrites k dir.command (.bit dir.target j) = true := by
  have hmask : ∀ i : Fin 16, i.val < 7 → (0x007F : Word).getLsbD i.val = true := by decide
  cases dir with
  | ab | ba => exact transferWrites_bit (hmask j hj) hj

theorem setWidth_getLsbD_of_ge {w n j : Nat} (x : BitVec w) (hj : w ≤ j) : (x.setWidth n).getLsbD j = false := by
  rw [BitVec.getLsbD_setWidth, BitVec.getLsbD_of_ge x j hj, Bool.and_false]

/-- A destination reads 0 beyond its width (R45, R105). -/
theorem Regs.readDest_getLsbD_of_ge (r : Regs) {d : Dest} {j : Nat} (hj : d.width ≤ j) :
    (r.readDest d).getLsbD j = false := by
  cases d with
  | pa | oa1 | oa2 | oa3 | oa4 | lr1 | lr2 | lr3 | da | dO => exact BitVec.getLsbD_of_ge _ j hj
  | ms | rr | fc | sb | pcs | fs | cfa | cfb => exact setWidth_getLsbD_of_ge _ hj

/-- A destination is determined by its bits within its width. -/
theorem readDest_eq_of_agreeAt {d : Dest} {s t : State}
    (h : ∀ j : Fin 16, j.val < d.width → AgreeAt (.bit d j) s t) : s.readDest d = t.readDest d := by
  refine BitVec.eq_of_getLsbD_eq fun j hj => ?_
  by_cases hwidth : j < d.width
  · exact h ⟨j, hj⟩ hwidth
  · have hge := Nat.le_of_not_lt hwidth
    rw [s.readDest_getLsbD_of_ge hge, t.readDest_getLsbD_of_ge hge]

/-- An unguarded entry of the pulse's position is selected, in its place (R175, R177). -/
theorem selected_unguarded (pre post : List Entry) (p : Fin 20) (i : Instr) (a : Arch) (k : Knots) :
    selected (pre ++ ⟨p, .all [], i⟩ :: post) p a k = selected pre p a k ++ i :: selected post p a k := by
  simp [selected, guardHolds]

/-- The commands a pulse selects are those of entries at its position (R177). -/
theorem exists_entry_at_of_mem_selected {chart : List Entry} {p : Fin 20} {a : Arch} {k : Knots} {i : Instr}
    (h : i ∈ selected chart p a k) : ∃ e ∈ chart, e.pos = p ∧ e.cmd = i := by
  obtain ⟨e, he, hi⟩ := List.mem_map.mp h
  obtain ⟨hmem, hsel⟩ := List.mem_filter.mp he
  exact ⟨e, hmem, beq_iff_eq.mp (Bool.and_eq_true_iff.mp hsel).1, hi⟩

/-- Settles O34: the latch is selected and is the last writer of its group's bits, so the group holds what
the latch alone would write, which is S0's source group. -/
theorem latchConvention : Obligations.LatchConvention := by
  rintro dir _ k s t ⟨pre, post, rfl, hother⟩ h
  obtain ⟨u, hdispatch, hrun⟩ := dispatch_next (pre ++ ⟨s.pi, .all [], dir.command⟩ :: post) k s
  obtain rfl := Host.Outcome.next.inj (hdispatch.symm.trans h)
  rw [selected_unguarded] at hrun
  have hpost (j : Fin 16) : ∀ i ∈ selected post s.pi s.toArch k, commandWrites k i (.bit dir.target j) = false := by
    intro i hi
    obtain ⟨e, he, hpos, rfl⟩ := exists_entry_at_of_mem_selected hi
    exact hother e (List.mem_append_right pre he) hpos k j
  have hlatched := readDest_eq_of_agreeAt fun j hj =>
    runCommands_lastWriter (c := ⟨s.toArch, k⟩) rfl hrun (latch_writes dir k hj) (hpost j) (exec_latch dir _)
  exact hlatched.symm.trans (transfer_latch dir s.toRegs (s.beginDispatch k))

end Sys2Proof.Machine
end

section
/-!
The knot network (spec file 45), knot by knot: the source of NO, the counting network and the words that
would select for it or for NA, the quartets of NI, the channel-priority signals, and the
jump-condition-verified signal.
-/

namespace Sys2Proof

/-- A class-2 word whose KNOT is neither NO nor NI is refused, whatever its other fields hold (R107). -/
theorem decode_otherOtKnot {c : CmdWord} {knot : BitVec 4} (hcls : c.extractLsb' 28 4 = 2)
    (hknot : c.extractLsb' 24 4 = knot) (hother : knot ≠ 0 ∧ knot ≠ 2) : decode c = .error .reservedOtKnot := by
  have hot : decode c = decodeOT c := by
    unfold decode
    rw [hcls]
    rfl
  obtain ⟨hno, hni⟩ := hother
  rw [hot, decodeOT, hknot]
  split
  · rename_i h
    exact absurd (BitVec.eq_of_toNat_eq h) hno
  · rename_i h
    exact absurd (BitVec.eq_of_toNat_eq h) hni
  · rfl

theorem NoSrc.id_toNat_le (src : NoSrc) : src.id.toNat ≤ 9 := by cases src <;> decide

/-- The patterns of the primary jump (R263). -/
def JumpCodes.patterns (t : JumpCodes) : List JumpPattern := [t.p0, t.p1, t.p2, t.p3]

theorem JumpPattern.fits_iff {p : JumpPattern} {b : Byte} : p.fits b = true ↔ b &&& p.mask = p.value := beq_iff_eq

theorem JumpPattern.Exclusive.symm {p q : JumpPattern} (h : p.Exclusive q) : q.Exclusive p :=
  fun b hb => h b hb.symm

/-- The pattern part of the check on JTAB (R263), on the list of the patterns. -/
theorem JumpCodes.Legal.patterns_pairwise {t : JumpCodes} (h : t.Legal) :
    t.patterns.Pairwise JumpPattern.Exclusive := by
  obtain ⟨-, -, -, h01, h02, h03, h12, h13, h23⟩ := h
  simp [JumpCodes.patterns, h01, h02, h03, h12, h13, h23]

/-- At most one pattern of a legal JTAB fits a byte (R263). -/
theorem JumpCodes.Legal.eq_of_fits {t : JumpCodes} (h : t.Legal) {p q : JumpPattern} {b : Byte}
    (hp : p ∈ t.patterns) (hq : q ∈ t.patterns) (hpb : p.fits b = true) (hqb : q.fits b = true) : p = q := by
  have hsymm : Std.Symm JumpPattern.Exclusive := ⟨fun _ _ => JumpPattern.Exclusive.symm⟩
  by_contra hne
  exact h.patterns_pairwise.forall hp hq hne b ⟨hpb, hqb⟩

end Sys2Proof

namespace Sys2Proof.Machine

/-! ## The NO knot -/

/-- The NO knot of a state whose NOSEL holds the id of a source is that source (R251). -/
theorem knotsOf_no_of_id {a : Arch} {src : NoSrc} (h : a.nosel.id = src.id) :
    (knotsOf a).no = noKnot Config.force1 Config.force2 { a.toRegs with nosel := src } := by
  have hsel : a.nosel = src := Option.some.inj (by rw [← NoSrc.ofId_id a.nosel, h, NoSrc.ofId_id])
  rw [← hsel]
  rfl

/-- Settles O7: NOSEL is the one source with its id, and the NO knot is that source. -/
theorem noKnotBySelection : Obligations.NoKnotBySelection := fun a =>
  ⟨a.nosel.id_toNat_le, knotsOf_no_of_id (src := .pa), knotsOf_no_of_id (src := .oa1),
    knotsOf_no_of_id (src := .oa2), knotsOf_no_of_id (src := .oa3), knotsOf_no_of_id (src := .oa4),
    knotsOf_no_of_id (src := .lr1), knotsOf_no_of_id (src := .lr2), knotsOf_no_of_id (src := .force1),
    knotsOf_no_of_id (src := .force2), knotsOf_no_of_id (src := .consw)⟩

/-! ## The counting network -/

theorem cnKnot_of_cnz {r : Regs} (h : r.cnz = true) : cnKnot r = r.dO + 1 := if_pos h

theorem cnKnot_of_not_cnz {r : Regs} (h : r.cnz = false) : cnKnot r = r.dO := by simp [cnKnot, h]

/-- Settles O8: the sum of a 16-bit word wraps, and KNOT 3 is neither NO nor NI. -/
theorem countingNetwork : Obligations.CountingNetwork := by
  refine ⟨fun a => ⟨fun h => ?_, cnKnot_of_not_cnz⟩, fun c hcls hknot => ?_⟩
  · calc (knotsOf a).cn.toNat
        = (a.dO + 1).toNat := congrArg BitVec.toNat (cnKnot_of_cnz h)
      _ = (a.dO.toNat + 1) % 65536 := BitVec.toNat_add a.dO 1
  · exact decode_otherOtKnot hcls hknot (by decide)

/-! ## The NI knot -/

theorem quartet_const_iff {α : Type} {x : Quartets α} {v : α} : (∀ q, quartet x q = v) ↔ x = ⟨v, v, v, v⟩ := by
  obtain ⟨q0, q1, q2, q3⟩ := x
  simp [Fin.forall_fin_succ, quartet]

/-- The fields of a word put together from four quartets, quartet 3 highest (R255). -/
theorem append_quartet (x : Quartets (BitVec 4)) (q : Fin 4) :
    (x.q3 ++ (x.q2 ++ (x.q1 ++ x.q0)) : Word).extractLsb' (4 * q.val) 4 = quartet x q := by
  have fields := (append_eq_iff x.q3 (x.q2 ++ (x.q1 ++ x.q0)) _).mp rfl
  simp only [extractLsb'_eq_append_iff] at fields
  obtain ⟨h3, h2, h1, h0⟩ := fields
  match q with
  | 0 => exact h0
  | 1 => exact h1
  | 2 => exact h2
  | 3 => exact h3

/-- All four quartets select CN: NI is the whole of CN (R256). -/
theorem niKnot_of_all_cn {r : Regs} (h : ∀ q, quartet r.nisel q = .cn) : niKnot r = cnKnot r :=
  if_pos (quartet_const_iff.mp h)

/-- Some quartet does not select CN: each quartet of NI comes from its own selection (R256). -/
theorem niKnot_quartet {r : Regs} (h : ∃ q, quartet r.nisel q ≠ .cn) (q : Fin 4) :
    (niKnot r).extractLsb' (4 * q.val) 4 = niQuartet r.rr (quartet r.nisel q) := by
  have hne : r.nisel ≠ ⟨.cn, .cn, .cn, .cn⟩ := fun heq => by
    obtain ⟨q, hq⟩ := h
    exact hq (quartet_const_iff.mpr heq q)
  rw [niKnot, if_neg hne]
  refine (append_quartet ⟨_, _, _, _⟩ q).trans ?_
  match q with
  | 0 | 1 | 2 | 3 => rfl

/-- Settles O9: beside a quartet that does not select CN, every quartet is `niQuartet` of its own
selection, which is 0 for CN. -/
theorem niKnotAllOrNothing : Obligations.NiKnotAllOrNothing := by
  refine fun a => ⟨niKnot_of_all_cn, fun h q => ?_⟩
  have hq {sel : NiSel} (hsel : quartet a.nisel q = sel) :
      (knotsOf a).ni.extractLsb' (4 * q.val) 4 = niQuartet a.rr sel := hsel ▸ niKnot_quartet h q
  exact ⟨hq, hq, hq, hq⟩

/-! ## The channel-priority signals -/

/-- The signals by the request that wins: channel 1, then 3, then 2, then the CPU (R258). RES0 shows only
when channel 1 wins, where it lets the CPU in beside it (R259). -/
theorem channels_eq (res0 req1 req2 req3 : Bool) :
    channels res0 req1 req2 req3 =
      if req1 then ⟨true, false, false, res0⟩
      else if req3 then ⟨false, false, true, false⟩
      else if req2 then ⟨false, true, false, false⟩
      else ⟨false, false, false, true⟩ := by
  cases req1 with
  | true => simp [channels]
  | false =>
    cases req3 with
    | true => simp [channels]
    | false => cases req2 <;> rfl

/-- CH1A and CPUA are both true exactly under RES0 with channel 1 requesting (R259). -/
theorem channels_overlap (res0 req1 req2 req3 : Bool) :
    ((channels res0 req1 req2 req3).ch1a && (channels res0 req1 req2 req3).cpua) = (res0 && req1) := by
  rw [channels_eq]
  split_ifs with h1 <;> simp [h1]

/-- How many of the four signals are true (R259). -/
theorem channels_count (res0 req1 req2 req3 : Bool) :
    ([(channels res0 req1 req2 req3).ch1a, (channels res0 req1 req2 req3).ch2a,
      (channels res0 req1 req2 req3).ch3a, (channels res0 req1 req2 req3).cpua].filter id).length =
      if res0 && req1 then 2 else 1 := by
  rw [channels_eq]
  cases req1 with
  | true => cases res0 <;> rfl
  | false => cases req3 <;> cases req2 <;> simp

theorem channels_cpua (res0 req1 req2 req3 : Bool) :
    (channels res0 req1 req2 req3).cpua =
      (!((channels res0 req1 req2 req3).ch1a || (channels res0 req1 req2 req3).ch2a ||
        (channels res0 req1 req2 req3).ch3a) || (res0 && (channels res0 req1 req2 req3).ch1a)) :=
  congrArg (_ || ·) (Bool.and_comm _ _)

/-- Settles O10: the formulas are those of the network, and the winner of the requests gives the count. -/
theorem channelPriority : Obligations.ChannelPriority := fun _ =>
  ⟨rfl, rfl, rfl, channels_cpua _ _ _ _, channels_overlap _ _ _ _, channels_count _ _ _ _⟩

/-! ## The NA knot -/

/-- Settles O11: the knot is NA_FN of K's own channel signals, and KNOT 1 is neither NO nor NI. -/
theorem naKnotInputs : Obligations.NaKnotInputs :=
  ⟨fun _ => rfl, fun _ hcls hknot => decode_otherOtKnot hcls hknot (by decide)⟩

/-! ## The jump-condition-verified signal -/

theorem jumpCond_iff {r : Regs} {c : JumpCond} :
    jumpCond r c = true ↔ (if c.group = .a then r.cfa else r.cfb).getLsbD c.bit.val = c.polarity := by
  unfold jumpCond
  cases c.group <;> simp

theorem patternHolds_iff {r : Regs} {p : JumpPattern} :
    patternHolds r p = true ↔ p.fits r.sb = true ∧ jumpCond r p.cond = true := Bool.and_eq_true_iff

/-- JCV by the three function codes of JTAB (R262). -/
theorem jcvKnot_iff {t : JumpCodes} {r : Regs} :
    jcvKnot t r = true ↔
      (r.fc = t.jop ∧ ∃ p ∈ t.patterns, patternHolds r p = true) ∨
      (r.fc = t.sop1 ∧ jumpCond r t.s1 = true) ∨ (r.fc = t.sop2 ∧ jumpCond r t.s2 = true) := by
  simp [jcvKnot, JumpCodes.patterns, or_assoc]

/-- Settles O12: `jcvKnot_iff` with the patterns and the conditions spelled out. -/
theorem jumpConditionVerified : Obligations.JumpConditionVerified := by
  refine ⟨fun a => ?_, rfl, fun _ _ => rfl⟩
  have h := jcvKnot_iff (t := Config.jumpTable.codes) (r := a.toRegs)
  simp only [patternHolds_iff, JumpPattern.fits_iff, jumpCond_iff] at h
  exact h

section
variable {t : JumpCodes} {r : Regs}

/-- Under the primary function code JCV is decided by the patterns alone (R262, R263). -/
theorem jcvKnot_of_jop (h : t.Legal) (hfc : r.fc = t.jop) :
    jcvKnot t r = true ↔ ∃ p ∈ t.patterns, patternHolds r p = true := by
  obtain ⟨hj1, hj2, -⟩ := h
  simp [jcvKnot_iff, hfc, hj1, hj2]

/-- The one pattern that fits gives the condition (R263). -/
theorem jcvKnot_of_fits (h : t.Legal) (hfc : r.fc = t.jop) {p : JumpPattern} (hp : p ∈ t.patterns)
    (hfit : p.fits r.sb = true) : jcvKnot t r = jumpCond r p.cond := by
  rw [Bool.eq_iff_iff, jcvKnot_of_jop h hfc]
  constructor
  · rintro ⟨q, hq, hholds⟩
    obtain ⟨hqfit, hcond⟩ := patternHolds_iff.mp hholds
    rwa [h.eq_of_fits hp hq hfit hqfit]
  · exact fun hcond => ⟨p, hp, patternHolds_iff.mpr ⟨hfit, hcond⟩⟩

theorem jcvKnot_of_no_fit (h : t.Legal) (hfc : r.fc = t.jop) (hnone : ∀ p ∈ t.patterns, p.fits r.sb = false) :
    jcvKnot t r = false := by
  rw [Bool.eq_false_iff, ne_eq, jcvKnot_of_jop h hfc]
  rintro ⟨p, hp, hholds⟩
  exact Bool.eq_false_iff.mp (hnone p hp) (patternHolds_iff.mp hholds).1

theorem jcvKnot_of_sop1 (h : t.Legal) (hfc : r.fc = t.sop1) : jcvKnot t r = jumpCond r t.s1 := by
  obtain ⟨hj1, -, h12, -⟩ := h
  rw [Bool.eq_iff_iff, jcvKnot_iff]
  simp [hfc, hj1.symm, h12]

theorem jcvKnot_of_sop2 (h : t.Legal) (hfc : r.fc = t.sop2) : jcvKnot t r = jumpCond r t.s2 := by
  obtain ⟨-, hj2, h12, -⟩ := h
  rw [Bool.eq_iff_iff, jcvKnot_iff]
  simp [hfc, hj2.symm, h12.symm]

theorem jcvKnot_of_other (hj : r.fc ≠ t.jop) (h1 : r.fc ≠ t.sop1) (h2 : r.fc ≠ t.sop2) : jcvKnot t r = false := by
  rw [Bool.eq_false_iff, ne_eq, jcvKnot_iff]
  simp [hj, h1, h2]

end

/-- Settles O13: the codes of a legal table are distinct and its patterns exclude each other, so one
disjunct of R262 at most can hold. -/
theorem jumpReadsOneCondition : Obligations.JumpReadsOneCondition :=
  ⟨fun j _ => ⟨fun _ hp hfc hfit => jcvKnot_of_fits j.legal hfc hp hfit,
      fun hfc hnone => jcvKnot_of_no_fit j.legal hfc hnone, jcvKnot_of_sop1 j.legal,
      jcvKnot_of_sop2 j.legal, jcvKnot_of_other⟩,
    fun _ => rfl⟩

end Sys2Proof.Machine
end

section
/-!
The control actions, the program load and the console's write (spec file 46): what a run of cleared flags
leaves, a new MS alone, the bytes a load puts into memory, and each call of the host with its frame.
-/

namespace Sys2Proof.Machine

/-! ## Clearing flags -/

/-- The parts of `Regs` that hold no flag are the same: what a write of flags leaves (R233). -/
structure Regs.SameButFlags (r r' : Regs) : Prop where
  dest : ∀ d, d ≠ .cfa → d ≠ .cfb → r'.readDest d = r.readDest d
  pms : r'.pms = r.pms
  nosel : r'.nosel = r.nosel
  nisel : r'.nisel = r.nisel
  consel : r'.consel = r.consel
  consw : r'.consw = r.consw

namespace Regs.SameButFlags

theorem refl (r : Regs) : r.SameButFlags r := ⟨fun _ _ _ => rfl, rfl, rfl, rfl, rfl, rfl⟩

theorem trans {r r' r'' : Regs} (a : r.SameButFlags r') (b : r'.SameButFlags r'') : r.SameButFlags r'' where
  dest d ha hb := (b.dest d ha hb).trans (a.dest d ha hb)
  pms := b.pms.trans a.pms
  nosel := b.nosel.trans a.nosel
  nisel := b.nisel.trans a.nisel
  consel := b.consel.trans a.consel
  consw := b.consw.trans a.consw

theorem writeFlag (r : Regs) (f : Flag) (b : Bool) : r.SameButFlags (r.writeFlag f b) := by
  obtain ⟨hpms, hnosel, hnisel, hconsel, hconsw, -⟩ := r.writeFlag_rest f b
  exact ⟨r.writeFlag_dest f b, hpms, hnosel, hnisel, hconsel, hconsw⟩

theorem clearFlags (fs : List Flag) (r : Regs) : r.SameButFlags (Regs.clearFlags fs r) := by
  induction fs generalizing r with
  | nil => exact refl r
  | cons f rest ih => exact (writeFlag r f false).trans (ih (r.writeFlag f false))

end Regs.SameButFlags

/-- `clear` leaves each flag as it was or 0 (R280). -/
theorem clear_readFlag (fs : List Flag) (s : State) (f : Flag) :
    (s.clear fs).readFlag f = if f ∈ fs ∨ f = .halted then false else s.readFlag f := by
  rw [State.clear, State.setRegs_toRegs, Regs.readFlag_writeFlag, Regs.readFlag_clearFlags]
  by_cases hhalted : f = .halted <;> simp [hhalted]

/-- `clear` writes flags alone (R280). -/
theorem clear_sameButFlags (fs : List Flag) (s : State) : s.toRegs.SameButFlags (s.clear fs).toRegs :=
  (Regs.SameButFlags.clearFlags fs s.toRegs).trans (.writeFlag _ .halted false)

/-- Settles O55: whatever flags CLEAR_SET names, clearing them leaves every part that holds no flag. -/
theorem clearAction : Obligations.ClearAction := by
  intro h s
  have same := clear_sameButFlags Config.clearSet s
  exact ⟨s.clear Config.clearSet, rfl, clear_readFlag Config.clearSet s, same.dest, fun _ => rfl,
    ⟨same.nosel, same.nisel⟩, setRegs_sameOutside same.pms same.consel same.consw⟩

/-- Settles O56: `load` is one write of a flag. -/
theorem loadAction : Obligations.LoadAction := fun _ s => putFlag_writesFlag .loading true s

/-! ## A new MS -/

/-- The state with another MS. `start_eq` ties it to `start`. -/
def State.setMs (v : Byte) (s : State) : State := s.setRegs { s.toRegs with ms := v }

theorem setMs_readDest_other {d : Dest} (v : Byte) (s : State) (hd : d ≠ .ms) :
    (s.setMs v).readDest d = s.readDest d := by
  cases d with
  | ms => exact absurd rfl hd
  | _ => rfl

theorem setMs_sameFlags (v : Byte) (s : State) : SameFlags s (s.setMs v) := by
  intro f
  cases f <;> rfl

theorem setMs_sameOutside (v : Byte) (s : State) : SameOutside s (s.setMs v) := setRegs_sameOutside rfl rfl rfl

theorem putFlag_ms (f : Flag) (b : Bool) (s : State) : (s.putFlag f b).ms = s.ms := by
  obtain ⟨-, -, -, -, -, hms⟩ := Regs.writeFlag_rest s.toRegs f b
  exact hms

theorem start_eq (v : Byte) (f : Flag) (s : State) : s.start v f = (s.setMs v).putFlag f false := rfl

/-- Settles O57: a new MS, which is no flag, and then one write of a flag, which leaves MS. -/
theorem startAction : Obligations.StartAction := by
  intro h s
  obtain ⟨t, ht, hflag, hothers, hdest, hmem, hsel, hout⟩ :=
    putFlag_writesFlag Config.startFlag false (s.setMs Config.displayState)
  obtain rfl : (s.setMs Config.displayState).putFlag Config.startFlag false = t := Host.Outcome.next.inj ht
  exact ⟨s.start Config.displayState Config.startFlag, rfl, putFlag_ms _ _ _, hflag,
    fun f hf => (hothers f hf).trans (setMs_sameFlags _ s f),
    fun d hms ha hb => (hdest d ha hb).trans (setMs_readDest_other _ s hms),
    hmem, hsel, (setMs_sameOutside _ s).trans hout⟩

/-! ## The program load -/

/-- A run of writes leaves the addresses it does not name (R83). -/
theorem Memory.read_writeAll_other {m : Memory} {ws : List (Word × Byte)} {a : Word} (ha : ∀ w ∈ ws, w.1 ≠ a) :
    (m.writeAll ws).read a = m.read a := by
  induction ws generalizing m with
  | nil => rfl
  | cons w rest ih =>
    obtain ⟨hw, hrest⟩ := List.forall_mem_cons.mp ha
    exact (ih hrest).trans (Memory.read_write_other m w.2 hw.symm)

/-- An address that a run of writes names, always with one byte, holds that byte after it (R83). -/
theorem Memory.read_writeAll_of_agree {m : Memory} {ws : List (Word × Byte)} {a : Word} {b : Byte}
    (hmem : (a, b) ∈ ws) (hagree : ∀ w ∈ ws, w.1 = a → w.2 = b) : (m.writeAll ws).read a = b := by
  induction ws generalizing m with
  | nil => cases hmem
  | cons w rest ih =>
    obtain ⟨hw, hrest⟩ := List.forall_mem_cons.mp hagree
    by_cases hlater : (a, b) ∈ rest
    · exact ih hlater hrest
    · obtain rfl : (a, b) = w := (List.mem_cons.mp hmem).resolve_right hlater
      have hnone : ∀ v ∈ rest, v.1 ≠ a := fun v hv hva =>
        hlater (by rwa [← hva, ← hrest v hv hva])
      calc ((m.write a b).writeAll rest).read a
          = (m.write a b).read a := Memory.read_writeAll_other hnone
        _ = b := by rw [Memory.read_write, if_pos rfl]

/-- A load names the addresses below min(n, 129), each with its one byte (R282). -/
theorem mem_loadBytes {buf : List Byte} {n seq : Nat} {w : Word × Byte} :
    w ∈ loadBytes buf n seq ↔
      w.1.toNat < min n 129 ∧ w.2 = buf.getD w.1.toNat (Config.unreadByte seq w.1.toNat) := by
  have hmem : w ∈ loadBytes buf n seq ↔
      ∃ i < min n 129, (BitVec.ofNat 16 i, buf.getD i (Config.unreadByte seq i)) = w := by
    simp only [loadBytes, Config.loadMax, List.mem_map, List.mem_range]
  rw [hmem]
  constructor
  · rintro ⟨i, hi, rfl⟩
    have haddr : (BitVec.ofNat 16 i).toNat = i := Nat.mod_eq_of_lt (by omega)
    exact ⟨by rwa [haddr], by rw [haddr]⟩
  · rintro ⟨hlt, hbyte⟩
    exact ⟨w.1.toNat, hlt, Prod.ext (by rw [BitVec.ofNat_toNat, BitVec.setWidth_eq]) hbyte.symm⟩

theorem programLoad_read_below {buf : List Byte} {n : Nat} {a : Word} {b : Byte} (s : State)
    (ha : a.toNat < min n 129) (hb : buf[a.toNat]? = some b) : (s.programLoad buf n).mem.read a = b := by
  have hbyte (d : Byte) : buf.getD a.toNat d = b := by rw [List.getD_eq_getElem?_getD, hb, Option.getD_some]
  refine Memory.read_writeAll_of_agree (mem_loadBytes.mpr ⟨ha, (hbyte _).symm⟩) fun w hw hwa => ?_
  obtain ⟨-, hw2⟩ := mem_loadBytes.mp hw
  rw [hw2, hwa, hbyte]

theorem programLoad_read_above {n : Nat} {a : Word} (buf : List Byte) (s : State) (ha : min n 129 ≤ a.toNat) :
    (s.programLoad buf n).mem.read a = s.mem.read a := by
  refine Memory.read_writeAll_other fun w hw hwa => ?_
  obtain ⟨hlt, -⟩ := mem_loadBytes.mp hw
  exact absurd ha (Nat.not_le.mpr (hwa ▸ hlt))

/-- Settles O58: the addresses a load names are those below min(n, 129), and each is named once. -/
theorem programLoadCopiesTheBuffer : Obligations.ProgramLoadCopiesTheBuffer :=
  fun _ s buf n => ⟨s.programLoad buf n, rfl, fun _ _ => programLoad_read_below s,
    fun _ => programLoad_read_above buf s, rfl, rfl, rfl, rfl, rfl, rfl⟩

/-! ## The console's write -/

theorem consoleWrite_sameRegs (sel : Fin 14) (sw : Word) (s : State) : SameRegs s (s.consoleWrite sel sw) := by
  intro d
  cases d <;> rfl

theorem consoleWrite_sameFlags (sel : Fin 14) (sw : Word) (s : State) : SameFlags s (s.consoleWrite sel sw) := by
  intro f
  cases f <;> rfl

/-- Settles O59: CONSEL and CONSW are neither destinations nor flags. -/
theorem consoleWrite : Obligations.ConsoleWrite :=
  fun _ s sel sw => ⟨s.consoleWrite sel sw, rfl, rfl, rfl, consoleWrite_sameRegs sel sw s,
    consoleWrite_sameFlags sel sw s, fun _ => rfl, ⟨rfl, rfl⟩, ⟨rfl, rfl, rfl⟩, rfl, rfl, rfl, rfl, rfl, rfl⟩

end Sys2Proof.Machine
end

section
/-!
The fatal errors and the hook rounds (spec file 60): the checks of a pulse one after the other, where a
fault comes from and what it reports, what a failed engine still does, and the cycle that stalls.
-/

namespace Sys2Proof.Machine

/-! ## A round of hooks -/

/-- A hook that answers a new state is followed by the rest of the round in that state (R322, R326). -/
theorem runHooks_cons_ok {call : Nat → Nat → Arch → HookAnswer} {a : Nat} {s : State} {eff : HookEffect}
    (ha : call a s.seq s.toArch = .ok eff) (rest : List Nat) :
    runHooks call (a :: rest) s = runHooks call rest (s.afterHook eff) := by
  simp [runHooks, ha]

/-- A hook that errs ends the round (R326). -/
theorem runHooks_cons_err {call : Nat → Nat → Arch → HookAnswer} {a : Nat} {s : State} {e : Nat}
    (ha : call a s.seq s.toArch = .err e) (rest : List Nat) :
    runHooks call (a :: rest) s = (s.tick, some e) := by
  simp [runHooks, ha]

theorem runHooks_keep_of_eq {call : Nat → Nat → Arch → HookAnswer} {hs : List Nat} {s t : State} {e : Option Nat}
    (hround : runHooks call hs s = (t, e)) : HooksKeep s t := by
  simpa [hround] using runHooks_keep call hs s

theorem HooksKeep.sameTables {s t : State} (keep : HooksKeep s t) : SameTables s t :=
  ⟨keep.charts, keep.guards, keep.hooks⟩

/-- At P0 the on-clock hooks run on the state after the snapshot (R141, R142). -/
theorem clockHooks_at_cycleStart (h : HookFns) {s : State} (hpi : s.pi = 0) :
    clockHooks h s.beginCycle = runHooks h.onClock s.hooks s.beginCycle := by
  obtain ⟨keep, -⟩ := s.beginCycle_keeps
  rw [clockHooks, if_pos (keep.pi.trans hpi), keep.hooks]

/-! ## The checks of a pulse, in their order -/

section
variable {h : HookFns} {s t : State} {table : ChartTable}

theorem advancePulse_of_clockError {e : Nat} (hrun : s.status = .running)
    (hreg : register s.guards s.charts = .ok table) (hclock : clockHooks h s.beginCycle = (t, some e)) :
    advancePulse h s = raiseFatal (.peripheralFailure e) t := by
  rw [advancePulse_of_registered h hrun hreg, pulseOn, hclock]

/-- On-clock hooks that do not err lead to the lookup (R142, R143). -/
theorem advancePulse_of_clockOk (hrun : s.status = .running)
    (hreg : register s.guards s.charts = .ok table) (hclock : clockHooks h s.beginCycle = (t, none)) :
    advancePulse h s = pulseFromLookup h table t := by
  rw [advancePulse_of_registered h hrun hreg, pulseOn, hclock]

theorem pulseFromLookup_of_noChart (hlook : table.lookup s.ms = none) :
    pulseFromLookup h table s = raiseFatal .chartMissing s := by
  rw [pulseFromLookup, hlook]

theorem pulseFromLookup_of_chart {chart : List Entry} (hlook : table.lookup s.ms = some chart) :
    pulseFromLookup h table s = pulseWithChart h chart s := by
  rw [pulseFromLookup, hlook]

theorem pulseWithChart_of_hookError {chart : List Entry} {e : Nat}
    (hhooks : runHooks h.onPulse s.hooks s = (t, some e)) :
    pulseWithChart h chart s = raiseFatal (.peripheralFailure e) t := by
  rw [pulseWithChart, hhooks]

end

/-- Settles O42: each check is reached once those before it have passed, and its failure is the outcome. -/
theorem orderOfChecks : Obligations.OrderOfChecks := by
  intro h s t table hrun hreg
  refine ⟨fun e hclock => ?_, fun hclock hlook => ?_, fun chart u e hclock hlook hhooks => ?_⟩
  · rw [advancePulse_of_clockError hrun hreg hclock, raiseFatal]
  · rw [advancePulse_of_clockOk hrun hreg hclock, pulseFromLookup_of_noChart hlook, raiseFatal]
  · rw [advancePulse_of_clockOk hrun hreg hclock, pulseFromLookup_of_chart hlook,
      pulseWithChart_of_hookError hhooks, raiseFatal]

/-- Settles O43: the on-clock round is the first hook's effect and then the second's error, and the failure
adds STATUS alone. -/
theorem firstHookErrorEndsTheRound : Obligations.FirstHookErrorEndsTheRound := by
  intro h s table a b rest eff e hrun hreg hpi hhooks ha hb
  obtain ⟨keep, -, hmem, hseq, -⟩ := s.beginCycle_keeps
  rw [← hseq] at ha hb
  have hclock : clockHooks h s.beginCycle = ((s.beginCycle.afterHook eff).tick, some e) := by
    rw [clockHooks_at_cycleStart h hpi, hhooks, runHooks_cons_ok ha, runHooks_cons_err hb]
  refine ⟨(s.beginCycle.afterHook eff).tick.failed (.peripheralFailure e), ?_, rfl, ?_, rfl,
    keep.pi.trans hpi, keep.sameTables⟩
  · rw [advancePulse_of_clockError hrun hreg hclock, raiseFatal, ← keep.pi.trans hpi]
    rfl
  · rw [State.failed_mem, State.tick_mem, State.afterHook_mem, hmem]

/-! ## Where a fault of a pulse comes from -/

/-- A fault of a pulse is a fatal error raised in a state whose PI is that of the pulse; and a Stall is
raised at P19 alone, with MS equal to the snapshot (R300 to R303). -/
theorem advancePulse_fault {h : HookFns} {s : State} {f : Fault} (hf : advancePulse h s = .fault f) :
    ∃ k u, raiseFatal k u = .fault f ∧ u.pi = s.pi ∧ (k = .stall → u.pi = 19 ∧ u.ms = u.pms) := by
  obtain ⟨r, hr⟩ | ⟨table, c, -, -, hclock, hends⟩ := advancePulse_cases h s _ hf
  · cases hr
  · have hc : c.pi = s.pi := (s.beginCycle_keeps.1.trans hclock).pi
    obtain ⟨e, -, hraise⟩ | ⟨-, -, hraise⟩ | ⟨chart, u, -, -, hpulse, ⟨e, -, hraise⟩ | ⟨v, -, hdisp, hend⟩⟩ := hends
    · exact ⟨_, c, hraise, hc, fun hk => (nomatch hk)⟩
    · exact ⟨_, c, hraise, hc, fun hk => (nomatch hk)⟩
    · exact ⟨_, u, hraise, hpulse.pi.trans hc, fun hk => (nomatch hk)⟩
    · obtain ⟨hpi, hms, rfl⟩ := endPulse_fault hend
      obtain ⟨-, hv, -⟩ := dispatch_keeps hdisp
      exact ⟨.stall, v, rfl, (hv.trans hpulse.pi).trans hc, fun _ => ⟨hpi, hms⟩⟩

/-- Only the failure kind Stall is reported as one. -/
theorem raiseFatal_eq_stall {k : FailureKind} {u t : State} {m : Byte} {p : Fin 20}
    (h : raiseFatal k u = .fault (.stall m p t)) : k = .stall ∧ m = u.ms ∧ p = u.pi ∧ t = u.failed .stall := by
  cases k with
  | stall =>
    cases h
    exact ⟨rfl, rfl, rfl, rfl⟩
  | chartMissing | peripheralFailure e => cases h

/-- Settles O40: the check that raises a Stall asks for P19 and for MS equal to PMS. -/
theorem stallOnlyAtLastPulse : Obligations.StallOnlyAtLastPulse := by
  intro h s t m p hf
  obtain ⟨k, u, hraise, hpi, hstall⟩ := advancePulse_fault hf
  obtain ⟨hk, rfl, rfl, rfl⟩ := raiseFatal_eq_stall hraise
  obtain ⟨hlast, hms⟩ := hstall hk
  exact ⟨hpi.symm.trans hlast, hlast, rfl, hms⟩

/-- Settles O41: raising a fatal error reports MS and PI of the state and changes STATUS alone. -/
theorem fatalErrorReport : Obligations.FatalErrorReport := by
  intro h s f hf
  obtain ⟨k, u, hraise, hpi, -⟩ := advancePulse_fault hf
  cases k with
  | chartMissing =>
    cases hraise
    exact ⟨hpi, .inl ⟨u.failed .chartMissing, rfl, rfl⟩⟩
  | stall =>
    cases hraise
    exact ⟨hpi, .inr (.inl ⟨u.failed .stall, rfl, rfl⟩)⟩
  | peripheralFailure e =>
    cases hraise
    exact ⟨hpi, .inr (.inr ⟨e, u.failed (.peripheralFailure e), rfl, rfl⟩)⟩

/-! ## A failed engine -/

/-- On a failed engine the calls that could raise an error, a pulse and the setup, are refused, and the
others leave the failure kind (R151, R305). -/
theorem hostCall_of_failed (h : HookFns) {s : State} {k : FailureKind} (hfailed : s.status = .failed k)
    (c : HostCall) :
    hostCall h c s = .refused .engineFailed ∨ ∃ t, hostCall h c s = .next t ∧ t.status = .failed k := by
  obtain ⟨hpulse, -, hsetup⟩ := failedEngineIsRefused h s k hfailed
  cases c with
  | advancePulse => exact .inl hpulse
  | setup => exact .inl hsetup
  | teardown => exact .inr ⟨_, rfl, (runHooks_keep h.onTeardown s.hooks s).status.trans hfailed⟩
  | clear | load | start | programLoad | consoleWrite => exact .inr ⟨_, rfl, hfailed⟩

/-- A turn of the driving loop is one such call. -/
theorem step_of_failed {s : State} {k : FailureKind} (hfailed : s.status = .failed k) :
    step s = .refused .engineFailed ∨ ∃ t, step s = .next t ∧ t.status = .failed k := by
  obtain ⟨hcall, hnone, hpulse⟩ := hostCallsBetweenPulses s
  cases hcalls : s.calls with
  | nil =>
    rw [hnone hcalls, ← hpulse]
    exact hostCall_of_failed Config.hookFns hfailed .advancePulse
  | cons c cs =>
    rw [hcall c cs hcalls]
    exact hostCall_of_failed Config.hookFns (s := s.setCalls cs) hfailed c

/-- Settles O46: a step of a failed engine is refused or keeps the failure kind. -/
theorem failureIsSticky : Obligations.FailureIsSticky := by
  intro s k hfailed
  obtain hrefused | ⟨u, hnext, hkept⟩ := step_of_failed hfailed
  · rw [hrefused]
    exact ⟨fun _ ht => (nomatch ht), fun _ hf => (nomatch hf)⟩
  · rw [hnext]
    exact ⟨fun _ ht => Host.Outcome.next.inj ht ▸ hkept, fun _ hf => (nomatch hf)⟩

/-! ## Setup and teardown -/

/-- On tables that pass their check the setup is its round of hooks (R321, R353). -/
theorem hostSetup_of_error {h : HookFns} {s t : State} {table : ChartTable} {e : Nat} (hrun : s.status = .running)
    (hreg : register s.guards s.charts = .ok table) (hround : runHooks h.onSetup s.hooks s = (t, some e)) :
    hostSetup h s = raiseFatal (.peripheralFailure e) t := by
  simp [hostSetup, hrun, hreg, hround]

theorem hostSetup_of_ok {h : HookFns} {s t : State} {table : ChartTable} (hrun : s.status = .running)
    (hreg : register s.guards s.charts = .ok table) (hround : runHooks h.onSetup s.hooks s = (t, none)) :
    hostSetup h s = .next t := by
  simp [hostSetup, hrun, hreg, hround]

/-- Settles O60: the two ends of the setup round; no hook of either round writes STATUS, PI or the tables. -/
theorem setupAndTeardown : Obligations.SetupAndTeardown := by
  intro h s
  refine ⟨fun table hrun hreg => ⟨fun t e hround => ?_, fun t hround => ?_⟩, ?_⟩
  · rw [hostCall, hostSetup_of_error hrun hreg hround, raiseFatal, (runHooks_keep_of_eq hround).pi]
  · have keep := runHooks_keep_of_eq hround
    exact ⟨hostSetup_of_ok hrun hreg hround, keep.status.trans hrun, keep.pi⟩
  · have keep := runHooks_keep h.onTeardown s.hooks s
    exact ⟨s.teardown h, rfl, keep.status, keep.pi, keep.sameTables⟩

/-! ## A cycle that never moves MS -/

theorem ms_eq_of_readDest {s t : State} (h : s.readDest .ms = t.readDest .ms) : s.ms = t.ms := by
  simpa [Regs.readDest] using congrArg (BitVec.setWidth 8) h

theorem mem_of_lookup {table : ChartTable} {ms : Byte} {chart : List Entry} (h : table.lookup ms = some chart) :
    (ms, chart) ∈ table := by
  obtain ⟨pre, post, rfl, -⟩ := List.lookup_eq_some_iff.mp h
  exact List.mem_append_right pre List.mem_cons_self

/-- The dispatch of a chart without a command that writes MS leaves MS (R207). -/
theorem dispatch_ms_of_unwritten {chart : List Entry} {k : Knots} {s t : State}
    (hchart : ∀ e ∈ chart, ∀ j, commandWrites k e.cmd (.bit .ms j) = false)
    (h : dispatch chart k s = .next t) : t.ms = s.ms := by
  obtain ⟨u, hu, hrun⟩ := dispatch_next chart k s
  obtain rfl : u.setDisp none = t := Host.Outcome.next.inj (hu.symm.trans h)
  have hread : (s.beginDispatch k).readDest .ms = u.readDest .ms := readDest_eq_of_agreeAt fun j _ =>
    runCommands_unwritten (c := ⟨s.toArch, k⟩) rfl hrun fun i hi => by
      obtain ⟨e, he, rfl⟩ := exists_entry_of_mem_selected hi
      exact hchart e he j
  exact (ms_eq_of_readDest hread).symm

theorem endPulse_of_early {s : State} (hpi : s.pi ≠ 19) : endPulse s = .next (s.setPi (nextPulse s.pi)) :=
  if_neg fun hstall => hpi hstall.1

section
variable {s t : State} {table : ChartTable} {chart : List Entry}

theorem ReadyAlone.setPi (ready : ReadyAlone s table) (p : Fin 20) : ReadyAlone (s.setPi p) table :=
  ⟨ready.running, ready.noCalls, ready.noHooks, ready.noDispatch, ready.tables⟩

theorem ReadyAlone.beginCycle (ready : ReadyAlone s table) : ReadyAlone s.beginCycle table := by
  obtain ⟨keep, -⟩ := s.beginCycle_keeps
  exact ⟨keep.status.trans ready.running, keep.calls.trans ready.noCalls, keep.hooks.trans ready.noHooks,
    keep.disp.trans ready.noDispatch, by rw [keep.guards, keep.charts, ready.tables]⟩

/-- After a dispatch the engine stands as before it (R183). -/
theorem ReadyAlone.dispatch (ready : ReadyAlone s table) {k : Knots} (h : dispatch chart k s = .next t) :
    ReadyAlone t table := by
  obtain ⟨u, hu, hdisp, -, -, hstatus, -, ⟨hcharts, hguards, hhooks⟩, hcalls, -⟩ := dispatchAlwaysCompletes chart k s
  obtain rfl : u = t := Host.Outcome.next.inj (hu.symm.trans h)
  exact ⟨hstatus.trans ready.running, hcalls.trans ready.noCalls, hhooks.trans ready.noHooks, hdisp,
    by rw [hguards, hcharts, ready.tables]⟩

/-- With no hook registered a pulse on a chart is its dispatch on the state after the snapshot, and the end
of the pulse (R141 to R147). -/
theorem ReadyAlone.advancePulse_of_chart (ready : ReadyAlone s table) (h : HookFns)
    (hlook : table.lookup s.ms = some chart)
    (hdisp : Machine.dispatch chart (knotsOf s.beginCycle.toArch) s.beginCycle = .next t) :
    advancePulse h s = endPulse t := by
  obtain ⟨-, hms, -⟩ := s.beginCycle_keeps
  have hhooks := ready.beginCycle.noHooks
  rw [advancePulse_of_clockOk ready.running ready.tables (clockHooks_of_none hhooks),
    pulseFromLookup_of_chart (hms ▸ hlook)]
  exact pulseWithChart_of_dispatch (by rw [hhooks]; rfl) hdisp

end

/-- What holds at each pulse of a cycle in which MS has not moved from `m`: the engine is ready alone, and
the snapshot this pulse works with, taken now at P0 or earlier in the cycle, is `m` too. -/
structure UnmovedAt (m : Byte) (table : ChartTable) (s : State) : Prop where
  ready : ReadyAlone s table
  ms : s.ms = m
  snapshot : s.beginCycle.pms = m

section
variable {m : Byte} {table : ChartTable} {chart : List Entry} {s : State}

theorem unmovedAt_of_pms (ready : ReadyAlone s table) (hms : s.ms = m) (hpms : s.pms = m) : UnmovedAt m table s := by
  obtain ⟨-, -, -, -, hsnap⟩ := s.beginCycle_keeps
  exact ⟨ready, hms, by rw [hsnap, hms, hpms, ite_self]⟩

/-- A cycle's first pulse takes the snapshot, so MS has not moved there (R141). -/
theorem unmovedAt_of_cycleStart (ready : ReadyAlone s table) (hpi : s.pi = 0) : UnmovedAt s.ms table s := by
  obtain ⟨-, -, -, -, hsnap⟩ := s.beginCycle_keeps
  exact ⟨ready, rfl, hsnap.trans (if_pos hpi)⟩

/-- When no chart writes MS the dispatch of the pulse leaves MS, and the snapshot, as they were. -/
theorem UnmovedAt.pulse (unmoved : UnmovedAt m table s) (h : HookFns) (hlook : table.lookup m = some chart)
    (hnever : NeverWritesMs table) :
    ∃ u, advancePulse h s = endPulse u ∧ ReadyAlone u table ∧ u.pi = s.pi ∧ u.ms = m ∧ u.pms = m := by
  obtain ⟨ready, rfl, hsnap⟩ := unmoved
  obtain ⟨keep, hms, -⟩ := s.beginCycle_keeps
  obtain ⟨u, hdisp, -⟩ := dispatchAlwaysCompletes chart (knotsOf s.beginCycle.toArch) s.beginCycle
  obtain ⟨hpms, hpi, -⟩ := dispatch_keeps hdisp
  have hkept : u.ms = s.beginCycle.ms :=
    dispatch_ms_of_unwritten (fun e he => hnever s.ms chart e (mem_of_lookup hlook) he _) hdisp
  exact ⟨u, ready.advancePulse_of_chart h hlook hdisp, ready.beginCycle.dispatch hdisp, hpi.trans keep.pi,
    hkept.trans hms, hpms.trans hsnap⟩

theorem pulsesToCycleEnd_of_fault {h : HookFns} {f : Fault} (hf : advancePulse h s = .fault f) (n : Nat) :
    pulsesToCycleEnd h (n + 1) s = .fault f := by
  simp [pulsesToCycleEnd, hf]

theorem pulsesToCycleEnd_of_live {h : HookFns} {t : State} (ht : advancePulse h s = .next t) (hlive : t.pi ≠ 0)
    (n : Nat) : pulsesToCycleEnd h (n + 1) s = pulsesToCycleEnd h n t := by
  simp [pulsesToCycleEnd, ht, hlive]

/-- The pulses that are left of such a cycle: each one before P19 hands the same situation to the next, and
P19 finds MS equal to the snapshot (R146, R301). -/
theorem UnmovedAt.stalls (h : HookFns) (hlook : table.lookup m = some chart) (hnever : NeverWritesMs table) {n : Nat}
    (unmoved : UnmovedAt m table s) (hn : s.pi.val + n = 20) :
    ∃ t, pulsesToCycleEnd h n s = .fault (.stall m 19 t) ∧ t.ms = m ∧ t.pms = m ∧ t.status = .failed .stall := by
  induction n generalizing s with
  | zero => omega
  | succ n ih =>
    obtain ⟨u, hpulse, ready, hpi, hms, hpms⟩ := unmoved.pulse h hlook hnever
    by_cases hlast : u.pi = 19
    · rw [endPulse_of_stall hlast (hms.trans hpms.symm), hms, hlast] at hpulse
      exact ⟨u.failed .stall, pulsesToCycleEnd_of_fault hpulse n, hms, hpms, rfl⟩
    · rw [endPulse_of_early hlast] at hpulse
      have hnext : (u.setPi (nextPulse u.pi)).pi.val = s.pi.val + 1 := by
        rw [State.setPi_pi, nextPulse_val, hpi]
        have : s.pi.val ≠ 19 := fun hval => hlast (hpi.trans (Fin.ext hval))
        omega
      have hlive : (u.setPi (nextPulse u.pi)).pi ≠ 0 := Fin.val_ne_zero_iff.mp (by omega)
      rw [pulsesToCycleEnd_of_live hpulse hlive]
      exact ih (unmovedAt_of_pms (ready.setPi _) hms hpms) (by omega)

end

/-- Settles O51: the snapshot of P0 is MS, and the twenty pulses that are left keep the two equal. -/
theorem cycleWithoutMsWriteStalls : Obligations.CycleWithoutMsWriteStalls := by
  intro h s table chart ready hpi hlook hnever
  exact (unmovedAt_of_cycleStart ready hpi).stalls (n := 20) h hlook hnever (by rw [hpi]; rfl)

end Sys2Proof.Machine
end

section
/-!
The state at creation (spec file 10), and the progress of a cycle without hooks (R364): its pulses carry
the snapshot of P0 to P19, whose check asks for another MS.
-/

namespace Sys2Proof.Machine

/-! ## The state at creation -/

theorem reset_readDest (d : Dest) : State.reset.readDest d = 0 := by
  cases d <;> rfl

/-- POWERED and HALTED alone are 1; the groups, RSB and X are vectors of zeros (R61). -/
theorem reset_readFlag (f : Flag) : State.reset.readFlag f = decide (f = .powered ∨ f = .halted) := by
  cases f with
  | cfa i | cfb i | rsb i | x i => exact BitVec.getLsbD_zero
  | _ => rfl

/-- Settles O6: the registers and flags by the two lemmas above, the other fields as they are written. -/
theorem creationReset : Obligations.CreationReset :=
  ⟨rfl, rfl, rfl, rfl, reset_readDest, rfl, rfl, reset_readFlag, rfl, rfl, Memory.read_nil, rfl, rfl⟩

/-! ## The progress of a cycle -/

/-- With no hook registered the snapshot a successful pulse works with is the one it leaves, and a pulse
of P19 succeeds only with MS different from it (R141, R146, R301). -/
theorem advancePulse_next_of_noHooks {h : HookFns} {s t : State} (hnone : s.hooks = [])
    (ht : advancePulse h s = .next t) :
    t.hooks = [] ∧ t.pms = s.beginCycle.pms ∧ (s.pi = 19 → t.ms ≠ t.pms) := by
  obtain ⟨-, -, hhooks⟩ := ((stepClosed_sameTables s).advancePulse h ⟨rfl, rfl, rfl⟩).1 t ht
  refine ⟨hhooks.trans hnone, ?_⟩
  obtain ⟨keep, -⟩ := s.beginCycle_keeps
  have hbegin : s.beginCycle.hooks = [] := keep.hooks.trans hnone
  obtain ⟨r, hr⟩ | ⟨table, c, -, -, -, hends⟩ := advancePulse_cases h s _ ht
  · cases hr
  · rw [clockHooks_of_none hbegin] at hends
    obtain ⟨e, -, hfail⟩ | ⟨-, -, hfail⟩ | ⟨chart, u, hclock, -, -, ⟨e, -, hfail⟩ | ⟨v, hround, hdisp, hend⟩⟩ := hends
    · exact absurd hfail (raiseFatal_ne_next _ _ _)
    · exact absurd hfail (raiseFatal_ne_next _ _ _)
    · exact absurd hfail (raiseFatal_ne_next _ _ _)
    · obtain ⟨rfl, -⟩ := Prod.mk.inj hclock
      rw [hbegin, runHooks_nil] at hround
      obtain ⟨rfl, -⟩ := Prod.mk.inj hround
      obtain ⟨hpms, hpi, -⟩ := dispatch_keeps hdisp
      obtain ⟨hcheck, rfl⟩ := endPulse_next hend
      exact ⟨hpms, fun hlast hms => hcheck ⟨(hpi.trans keep.pi).trans hlast, hms⟩⟩

/-- The pulses of a cycle without hooks all work with the snapshot of its P0 (R141). -/
theorem snapshot_along_cycle {h : HookFns} {trace : Nat → State} (hnone : (trace 0).hooks = [])
    (hpulses : ∀ j, j < 20 → (trace j).pi.val = j ∧ advancePulse h (trace j) = .next (trace (j + 1)))
    {j : Nat} (hj : j < 20) : (trace j).hooks = [] ∧ (trace j).beginCycle.pms = (trace 0).ms := by
  induction j with
  | zero =>
    obtain ⟨hpi, -⟩ := hpulses 0 hj
    obtain ⟨-, -, -, -, hsnap⟩ := (trace 0).beginCycle_keeps
    exact ⟨hnone, hsnap.trans (if_pos (Fin.ext hpi))⟩
  | succ j ih =>
    obtain ⟨hhooks, hsnap⟩ := ih (by omega)
    obtain ⟨-, hpulse⟩ := hpulses j (by omega)
    obtain ⟨hpi, -⟩ := hpulses (j + 1) hj
    obtain ⟨hhooks', hpms, -⟩ := advancePulse_next_of_noHooks hhooks hpulse
    obtain ⟨-, -, -, -, hsnap'⟩ := (trace (j + 1)).beginCycle_keeps
    have hlater : (trace (j + 1)).pi ≠ 0 := Fin.val_ne_zero_iff.mp (by omega)
    rw [if_neg hlater] at hsnap'
    exact ⟨hhooks', (hsnap'.trans hpms).trans hsnap⟩

/-- Settles O50: P19, the last of the cycle's twenty pulses, succeeds only with MS different from the
snapshot, which is the MS the cycle began with. -/
theorem successfulCycleMovesMs : Obligations.SuccessfulCycleMovesMs := by
  intro h s t hpi hnone hrun
  obtain ⟨trace, rfl, rfl, -, hpulses⟩ := cycleVisitsEveryPulseOnce h s t hpi hrun
  obtain ⟨hhooks, hsnap⟩ := snapshot_along_cycle hnone hpulses (j := 19) (by omega)
  obtain ⟨hlast, hpulse⟩ := hpulses 19 (by omega)
  obtain ⟨-, hpms, hmoved⟩ := advancePulse_next_of_noHooks hhooks hpulse
  rw [← hsnap, ← hpms]
  exact hmoved (Fin.ext hlast)

end Sys2Proof.Machine
end
